-- ==== Sys2Proof/Word.lean ====
section
/-! DEFINITION. The two sizes of the machine: the byte and the word (spec/00_scope.md R3). -/

namespace Sys2Proof

/-- A byte ("octet"), 8 bits (R3). -/
abbrev Byte := BitVec 8

/-- A word ("mot"), 2 bytes, 16 bits (R3): the width of A, X, SP, PC, `Spec` and of an address. -/
abbrev Word := BitVec 16

end Sys2Proof
end

