-- ==== Sys2Proof/Syntax.lean ====
section
/-! DEFINITION. The instructions as syntax: one constructor per row of spec/opcode_table.json, with the fields of
spec/30_encoding.md R53. The 18 combinations that R70 calls illegal are terms too: they decode to their row
(spec/90_conflicts.md C7) and WellFormed.lean refuses them. -/

namespace Sys2Proof

/-- The register a 1-bit field `r` selects (R10): `r = 0` is A, `r = 1` is X. -/
inductive Reg where
  | a
  | x
  deriving DecidableEq, Repr

/-- The eight addressing modes, by the source's letters (spec/30_encoding.md section 4). -/
inductive Mode where
  /-- immediate, aaa = 000 (R60) -/
  | i
  /-- direct, aaa = 001 (R61) -/
  | d
  /-- indirect, aaa = 010 (R62) -/
  | n
  /-- stack-relative, aaa = 011 (R63) -/
  | s
  /-- stack-relative deferred, aaa = 100 (R64) -/
  | sf
  /-- indexed, aaa = 101 (R65) -/
  | x
  /-- stack-indexed, aaa = 110 (R66) -/
  | sx
  /-- stack-indexed deferred, aaa = 111 (R67) -/
  | sxf
  deriving DecidableEq, Repr

/-- The two modes of the 1-bit field `a` of a branch or CALL (R68). -/
inductive BranchMode where
  /-- `a = 0`: immediate -/
  | i
  /-- `a = 1`: indexed -/
  | x
  deriving DecidableEq, Repr

/-- The 39 instructions (R2, R55), in the order of the opcode table. `spec` is the operand specifier. -/
inductive Instr where
  | stop
  | rettr
  | movspa
  | movflga
  | br (a : BranchMode) (spec : Word)
  | brle (a : BranchMode) (spec : Word)
  | brlt (a : BranchMode) (spec : Word)
  | breq (a : BranchMode) (spec : Word)
  | brne (a : BranchMode) (spec : Word)
  | brge (a : BranchMode) (spec : Word)
  | brgt (a : BranchMode) (spec : Word)
  | brv (a : BranchMode) (spec : Word)
  | brc (a : BranchMode) (spec : Word)
  | call (a : BranchMode) (spec : Word)
  | notr (r : Reg)
  | negr (r : Reg)
  | aslr (r : Reg)
  | asrr (r : Reg)
  | rolr (r : Reg)
  | rorr (r : Reg)
  | nopn (nn : BitVec 2)
  | nop (m : Mode) (spec : Word)
  | deci (m : Mode) (spec : Word)
  | deco (m : Mode) (spec : Word)
  | stro (m : Mode) (spec : Word)
  | chari (m : Mode) (spec : Word)
  | charo (m : Mode) (spec : Word)
  | retn (n : BitVec 3)
  | addsp (m : Mode) (spec : Word)
  | subsp (m : Mode) (spec : Word)
  | addr (r : Reg) (m : Mode) (spec : Word)
  | subr (r : Reg) (m : Mode) (spec : Word)
  | andr (r : Reg) (m : Mode) (spec : Word)
  | orr (r : Reg) (m : Mode) (spec : Word)
  | cpr (r : Reg) (m : Mode) (spec : Word)
  | ldr (r : Reg) (m : Mode) (spec : Word)
  | ldbyter (r : Reg) (m : Mode) (spec : Word)
  | str (r : Reg) (m : Mode) (spec : Word)
  | stbyter (r : Reg) (m : Mode) (spec : Word)
  deriving DecidableEq, Repr

end Sys2Proof
end

