-- ==== Sys2Proof/WellFormed.lean ====
section
/-! DEFINITION. Which instructions the assembler may emit: the "Modes d'adressage" column (spec/30_encoding.md R55,
R70). Every other field value is legal (R71). -/

namespace Sys2Proof

/-- A destination or a string cannot be immediate: the modes d,n,s,sf,x,sx,sxf. -/
def Mode.isMemory : Mode → Bool
  | .i => false
  | .d | .n | .s | .sf | .x | .sx | .sxf => true

/-- The three modes of STRO: d, n, sf. -/
def Mode.isString : Mode → Bool
  | .d | .n | .sf => true
  | .i | .s | .x | .sx | .sxf => false

/-- The one mode of NOP: i. -/
def Mode.isImmediate : Mode → Bool
  | .i => true
  | .d | .n | .s | .sf | .x | .sx | .sxf => false

/-- The instruction uses an addressing mode that the source lists for it (R55, R70). -/
def Instr.wellFormed : Instr → Bool
  | .stop | .rettr | .movspa | .movflga => true
  | .br _ _ | .brle _ _ | .brlt _ _ | .breq _ _ | .brne _ _ | .brge _ _ | .brgt _ _ | .brv _ _ | .brc _ _ => true
  | .call _ _ => true
  | .notr _ | .negr _ | .aslr _ | .asrr _ | .rolr _ | .rorr _ => true
  | .nopn _ => true
  | .nop m _ => m.isImmediate
  | .deci m _ => m.isMemory
  | .deco _ _ => true
  | .stro m _ => m.isString
  | .chari m _ => m.isMemory
  | .charo _ _ => true
  | .retn _ => true
  | .addsp _ _ | .subsp _ _ => true
  | .addr _ _ _ | .subr _ _ _ | .andr _ _ _ | .orr _ _ _ | .cpr _ _ _ => true
  | .ldr _ _ _ | .ldbyter _ _ _ => true
  | .str _ m _ => m.isMemory
  | .stbyter _ m _ => m.isMemory

end Sys2Proof
end

