-- ==== Sys2Proof/Decode.lean ====
section
/-! DEFINITION. From bytes to an instruction and back (spec/30_encoding.md R50 to R55), with the byte order of a word
(spec/20_memory.md R32, R34), which the operand specifier shares with data (R52). -/

namespace Sys2Proof

/-- The more significant byte of a word, stored at the lower address (R34). -/
def hiByte (w : Word) : Byte := w.extractLsb' 8 8

/-- The less significant byte of a word, stored at the higher address (R34). -/
def loByte (w : Word) : Byte := w.extractLsb' 0 8

/-- `hi ++ lo`: the word whose byte at the lower address is `hi` (R32). -/
def wordOf (hi lo : Byte) : Word := hi ++ lo

/-! ### The fields of the instruction specifier (R53) -/

/-- `r`: 0 = A, 1 = X (R10). -/
def regOfBit (b : Bool) : Reg := if b then .x else .a

/-- The 1-bit field of a register (R10). -/
def Reg.field : Reg → BitVec 1
  | .a => 0b0#1
  | .x => 0b1#1

/-- `a`: 0 = immediate, 1 = indexed (R68). -/
def branchModeOfBit (b : Bool) : BranchMode := if b then .x else .i

/-- The 1-bit field of a branch mode (R68). -/
def BranchMode.field : BranchMode → BitVec 1
  | .i => 0b0#1
  | .x => 0b1#1

/-- `aaa` (spec/30_encoding.md section 4): the mode with a given 3-bit number. -/
def modeOfField (f : BitVec 3) : Mode :=
  match f.toNat with
  | 0 => .i
  | 1 => .d
  | 2 => .n
  | 3 => .s
  | 4 => .sf
  | 5 => .x
  | 6 => .sx
  | _ => .sxf

/-- The 3-bit field of a mode (spec/30_encoding.md section 4). -/
def Mode.field : Mode → BitVec 3
  | .i => 0b000#3
  | .d => 0b001#3
  | .n => 0b010#3
  | .s => 0b011#3
  | .sf => 0b100#3
  | .x => 0b101#3
  | .sx => 0b110#3
  | .sxf => 0b111#3

/-! ### Lengths -/

/-- `Unary(b)`: the specifiers of the 1-byte instructions (R51). -/
def unarySpecifier (b : Byte) : Bool :=
  decide (b ≤ 0x03#8) || (decide (0x18#8 ≤ b) && decide (b ≤ 0x27#8)) || (decide (0x58#8 ≤ b) && decide (b ≤ 0x5F#8))

/-- `TrapOpcode(b)`: the specifiers of the five trap instructions (R54, R200). -/
def trapSpecifier (b : Byte) : Bool := decide (0x24#8 ≤ b) && decide (b ≤ 0x47#8)

/-! ### Decoding -/

/-- The row of specifiers 0x70 to 0xFF by `b[7:4]`, with `r = b[3]` and `aaa = b[2:0]` (R55). -/
def decodeRegisterRow (b : Byte) (spec : Word) : Instr :=
  let r := regOfBit (b.getLsbD 3)
  let m := modeOfField (b.extractLsb' 0 3)
  match (b.extractLsb' 4 4).toNat with
  | 7 => .addr r m spec
  | 8 => .subr r m spec
  | 9 => .andr r m spec
  | 10 => .orr r m spec
  | 11 => .cpr r m spec
  | 12 => .ldr r m spec
  | 13 => .ldbyter r m spec
  | 14 => .str r m spec
  | _ => .stbyter r m spec

/-- The row of specifiers 0x28 to 0x6F by `b[7:3]`, with `aaa` (or `nnn`) `= b[2:0]` (R55). -/
def decodeModeRow (b : Byte) (spec : Word) : Instr :=
  let m := modeOfField (b.extractLsb' 0 3)
  match (b.extractLsb' 3 5).toNat with
  | 5 => .nop m spec
  | 6 => .deci m spec
  | 7 => .deco m spec
  | 8 => .stro m spec
  | 9 => .chari m spec
  | 10 => .charo m spec
  | 11 => .retn (b.extractLsb' 0 3)
  | 12 => .addsp m spec
  | _ => .subsp m spec

/-- The row of specifiers 0x04 to 0x23 by `b[7:1]`, with `a` or `r` `= b[0]` (R55). -/
def decodeBitRow (b : Byte) (spec : Word) : Instr :=
  let a := branchModeOfBit (b.getLsbD 0)
  let r := regOfBit (b.getLsbD 0)
  match (b.extractLsb' 1 7).toNat with
  | 2 => .br a spec
  | 3 => .brle a spec
  | 4 => .brlt a spec
  | 5 => .breq a spec
  | 6 => .brne a spec
  | 7 => .brge a spec
  | 8 => .brgt a spec
  | 9 => .brv a spec
  | 10 => .brc a spec
  | 11 => .call a spec
  | 12 => .notr r
  | 13 => .negr r
  | 14 => .aslr r
  | 15 => .asrr r
  | 16 => .rolr r
  | _ => .rorr r

/-- The row of specifiers 0x00 to 0x03 (R55). -/
def decodePlainRow (b : Byte) : Instr :=
  match b.toNat with
  | 0 => .stop
  | 1 => .rettr
  | 2 => .movspa
  | _ => .movflga

/-- The instruction that the specifier `b` selects, with operand specifier `spec` (ignored by a unary instruction):
the decoding procedure of R55, top bits first. Total: every byte selects exactly one row (R2). -/
def decodeSpecifier (b : Byte) (spec : Word) : Instr :=
  if 0x70#8 ≤ b then decodeRegisterRow b spec
  else if 0x28#8 ≤ b then decodeModeRow b spec
  else if 0x24#8 ≤ b then .nopn (b.extractLsb' 0 2)
  else if 0x04#8 ≤ b then decodeBitRow b spec
  else decodePlainRow b

/-- Why a list of bytes does not begin with an instruction. There is no unassigned opcode (R2), so the only reasons are
bytes that are missing. -/
inductive DecodeError where
  /-- no byte at all -/
  | noSpecifier
  /-- a non-unary specifier (R51) without the two bytes of its operand specifier (R52) -/
  | missingOperandSpecifier (specifier : Byte)
  deriving DecidableEq, Repr

/-- Decode the instruction at the front of a list of bytes and return the bytes after it (R50 to R52, R55). -/
def decode : List Byte → Except DecodeError (Instr × List Byte)
  | [] => .error .noSpecifier
  | b :: rest =>
    if unarySpecifier b then .ok (decodeSpecifier b 0, rest)
    else
      match rest with
      | hi :: lo :: rest' => .ok (decodeSpecifier b (wordOf hi lo), rest')
      | _ => .error (.missingOperandSpecifier b)

/-! ### Encoding -/

/-- The instruction specifier: the pattern of the source's column "Binaire" with its fields filled in (R53, R55). -/
def specifierOf : Instr → Byte
  | .stop => 0b00000000#8
  | .rettr => 0b00000001#8
  | .movspa => 0b00000010#8
  | .movflga => 0b00000011#8
  | .br a _ => 0b0000010#7 ++ a.field
  | .brle a _ => 0b0000011#7 ++ a.field
  | .brlt a _ => 0b0000100#7 ++ a.field
  | .breq a _ => 0b0000101#7 ++ a.field
  | .brne a _ => 0b0000110#7 ++ a.field
  | .brge a _ => 0b0000111#7 ++ a.field
  | .brgt a _ => 0b0001000#7 ++ a.field
  | .brv a _ => 0b0001001#7 ++ a.field
  | .brc a _ => 0b0001010#7 ++ a.field
  | .call a _ => 0b0001011#7 ++ a.field
  | .notr r => 0b0001100#7 ++ r.field
  | .negr r => 0b0001101#7 ++ r.field
  | .aslr r => 0b0001110#7 ++ r.field
  | .asrr r => 0b0001111#7 ++ r.field
  | .rolr r => 0b0010000#7 ++ r.field
  | .rorr r => 0b0010001#7 ++ r.field
  | .nopn nn => 0b001001#6 ++ nn
  | .nop m _ => 0b00101#5 ++ m.field
  | .deci m _ => 0b00110#5 ++ m.field
  | .deco m _ => 0b00111#5 ++ m.field
  | .stro m _ => 0b01000#5 ++ m.field
  | .chari m _ => 0b01001#5 ++ m.field
  | .charo m _ => 0b01010#5 ++ m.field
  | .retn n => 0b01011#5 ++ n
  | .addsp m _ => 0b01100#5 ++ m.field
  | .subsp m _ => 0b01101#5 ++ m.field
  | .addr r m _ => 0b0111#4 ++ r.field ++ m.field
  | .subr r m _ => 0b1000#4 ++ r.field ++ m.field
  | .andr r m _ => 0b1001#4 ++ r.field ++ m.field
  | .orr r m _ => 0b1010#4 ++ r.field ++ m.field
  | .cpr r m _ => 0b1011#4 ++ r.field ++ m.field
  | .ldr r m _ => 0b1100#4 ++ r.field ++ m.field
  | .ldbyter r m _ => 0b1101#4 ++ r.field ++ m.field
  | .str r m _ => 0b1110#4 ++ r.field ++ m.field
  | .stbyter r m _ => 0b1111#4 ++ r.field ++ m.field

/-- The operand specifier of a non-unary instruction; none for a unary one (R50, R51). -/
def operandSpecifierOf : Instr → Option Word
  | .stop | .rettr | .movspa | .movflga => none
  | .br _ w | .brle _ w | .brlt _ w | .breq _ w | .brne _ w | .brge _ w | .brgt _ w | .brv _ w | .brc _ w => some w
  | .call _ w => some w
  | .notr _ | .negr _ | .aslr _ | .asrr _ | .rolr _ | .rorr _ => none
  | .nopn _ => none
  | .nop _ w | .deci _ w | .deco _ w | .stro _ w => some w
  | .chari _ w | .charo _ w => some w
  | .retn _ => none
  | .addsp _ w | .subsp _ w => some w
  | .addr _ _ w | .subr _ _ w | .andr _ _ w | .orr _ _ w | .cpr _ _ w => some w
  | .ldr _ _ w | .ldbyter _ _ w => some w
  | .str _ _ w | .stbyter _ _ w => some w

/-- The bytes of an instruction: the specifier, then for a non-unary one the operand specifier, more significant byte
first (R50, R52). -/
def encode (i : Instr) : List Byte :=
  match operandSpecifierOf i with
  | none => [specifierOf i]
  | some w => [specifierOf i, hiByte w, loByte w]

/-- The three bytes of an instruction word numbered as spec/opcode_table.json numbers it: bit 0 is the least
significant bit of the first byte; bits at and above `nbits` are 0. -/
def tableBytes (nbits w : Nat) : List Byte :=
  let k := w % 2 ^ nbits
  [BitVec.ofNat 8 k, BitVec.ofNat 8 (k / 2 ^ 8), BitVec.ofNat 8 (k / 2 ^ 16)]

/-- The instruction the decoder reads from an opcode-table word. -/
def decodeTableWord (nbits w : Nat) : Option Instr :=
  match decode (tableBytes nbits w) with
  | .ok (i, _) => some i
  | .error _ => none

end Sys2Proof
end

