-- ==== Sys2Proof/Config.lean ====
section
/-! DEFINITION. The OPEN parameters of spec/00_scope.md R4: what one Pep/8 fixes for a whole run and the spec leaves to
it. They are plain data in `State.params`, no step writes them, and a statement about every state holds for every
choice of them (log entry 1). `INIT_REGS` and `INIT_MEM` act only at the start of a run: arguments of `State.start`. -/

namespace Sys2Proof

/-- `SUB_FLAGS`: how a subtraction's carry and overflow come about (spec/46_arith_logic.md R152). -/
inductive SubFlags where
  /-- `a + ~b + 1` -/
  | adder
  /-- `a + (0 - b)` -/
  | negateThenAdd
  deriving DecidableEq, Repr

/-- `MOVFLGA_UPPER`: what MOVFLGA does to A[15:8] (spec/40_control.md R103). -/
inductive MovflgaUpper where
  | zero
  | preserve
  deriving DecidableEq, Repr

/-- `TRAP_MODEL`: a trap instruction runs in one step with its service effect, or enters the trap
(spec/43_traps.md R129). -/
inductive TrapModel where
  | service
  | hardware
  deriving DecidableEq, Repr

/-- `INPUT_EOF`: reading the empty input stream faults, or waits (spec/10_state.md R17). -/
inductive InputEof where
  | fault
  | block
  deriving DecidableEq, Repr

/-- `ROM_WRITE`: a store to ROM is ignored, or faults (spec/20_memory.md R35). -/
inductive RomWrite where
  | ignore
  | fault
  deriving DecidableEq, Repr

/-- The parameters a running machine consults (R4). -/
structure Params where
  subFlags : SubFlags
  movflgaUpper : MovflgaUpper
  trapModel : TrapModel
  inputEof : InputEof
  /-- `ROM_START`, 0 to 0x10000: the bytes at and above it are ROM (R35); 0x10000 means there is none -/
  romStart : Fin 65537
  romWrite : RomWrite
  /-- `USER_SP_INIT`: SP at the start of a run (R20) -/
  userSpInit : Word
  deriving DecidableEq, Repr

end Sys2Proof
end

