-- ==== Sys2Proof/Machine/Defaults.lean ====
section
/-! DEFINITION. The fixed values of spec/00_scope.md R4: the defaults of the open parameters, the fixed addresses, and
what a byte that nothing has written reads as. -/

namespace Sys2Proof.Machine

/-- The defaults that R4 gives the open parameters. -/
def defaultParams : Params where
  subFlags := .adder
  movflgaUpper := .zero
  trapModel := .service
  inputEof := .fault
  romStart := ⟨0x10000, by decide⟩
  romWrite := .ignore
  userSpInit := 0xFBCF

/-- `LOAD_ADDRESS` (R4, R230): where a program image begins and where a run starts. -/
def loadAddress : Word := 0x0000

/-- `USER_SP_VECTOR` (R4, R202): the word an operating system keeps its initial user SP in. -/
def userSpVector : Word := 0xFFF8

/-- `SYS_SP_VECTOR` (R4, R202): the word that holds the address just above the system stack. -/
def sysSpVector : Word := 0xFFFA

/-- `LOADER_PC_VECTOR` (R4, R202): the word that holds the loader's entry point. -/
def loaderPcVector : Word := 0xFFFC

/-- `TRAP_PC_VECTOR` (R4, R202): the word that holds the address of the trap handler. -/
def trapPcVector : Word := 0xFFFE

/-- What an address that memory does not list reads as: `INIT_MEM = zero` (R20; log entry 3). -/
def unlistedByte : Byte := 0x00

end Sys2Proof.Machine
end

