-- ==== Sys2Proof/Machine/State.lean ====
section
/-! DEFINITION. The machine's state as plain data: exactly the state of spec/10_state.md, and the run's parameters. -/

namespace Sys2Proof.Machine

/-- The faults of spec/60_exceptions.md R208: terminal outcomes. The state a fault leaves is the state before the fetch
(`State.afterFault`). -/
inductive Fault where
  /-- The specifier `ir` names an addressing mode the source does not list for its instruction (R70). Raised by NOP,
  DECI, STRO, CHARI, STr and STBYTEr. Safe: the real machine does something the source does not tell. -/
  | illegalAddressingMode (ir : Byte)
  /-- `InPop()` on the empty input stream with `INPUT_EOF = fault` (R17). Raised by CHARI and DECI. Safe: an interactive
  machine would wait. -/
  | inputExhausted
  /-- The DECI service met the byte `c`, which can neither start nor continue a numeral (R135). Raised by DECI. Safe for
  what a program may claim; the published operating system prints a message and stops. -/
  | invalidDeciInput (c : Byte)
  /-- The STRO service found no 0x00 byte in all of memory (R138). Raised by STRO. Safe: the real machine would output
  for ever. -/
  | unterminatedString
  /-- A store to the ROM address `addr` with `ROM_WRITE = fault` (R35). Raised by every storing instruction and by trap
  entry. Safe: the other setting ignores the store. -/
  | romWrite (addr : Word)
  deriving DecidableEq, Repr

/-- Why a step has no outcome. -/
inductive Refusal where
  /-- The instruction has no meaning in this model. No arm of `exec` answers it. Safe. -/
  | notModelled (mnemonic : String)
  /-- `Halted` is true: there is no step (R19, R54). Raised by `step` alone, of a halted machine. Safe. -/
  | halted
  /-- `InPop()` on the empty input stream with `INPUT_EOF = block`: the step has no outcome and the machine waits
  (R17). Raised by CHARI and DECI. Safe: the state is as before the fetch. -/
  | waitingForInput
  deriving DecidableEq, Repr

/-- How an operation ends when it does not end in a value: a fault, or no outcome. -/
inductive Stop where
  | fault (f : Fault)
  | refused (r : Refusal)
  deriving DecidableEq, Repr

/-- `Mem` (R16) as the bytes that differ from what an unlisted address reads as, addresses strictly rising
(`Memory.wf`). -/
abbrev Memory := List Host.Cell

/-- The state of the machine (spec/10_state.md), and the parameters of the run. -/
structure State where
  /-- A, the accumulator (R10) -/
  a : Word
  /-- X, the index register (R10) -/
  x : Word
  /-- SP, the stack pointer (R11) -/
  sp : Word
  /-- PC, the program counter (R12) -/
  pc : Word
  /-- N, negative (R13) -/
  n : Bool
  /-- Z, zero (R13) -/
  z : Bool
  /-- V, signed overflow (R13) -/
  v : Bool
  /-- C, carry (R13) -/
  c : Bool
  /-- IR, the instruction specifier latch (R14) -/
  ir : Byte
  /-- Spec, the operand specifier latch (R14) -/
  spec : Word
  /-- Mem (R16) -/
  mem : Memory
  /-- In, consumed from the front (R17) -/
  input : List Byte
  /-- Out, appended at the back (R18) -/
  output : List Byte
  /-- Halted (R19) -/
  halted : Bool
  /-- Fault (R19, R208) -/
  fault : Option Fault
  /-- the model's own field: the open parameters of the run (R4; log entry 1) -/
  params : Params
  deriving DecidableEq, Repr

/-- What a meaning answers: one of the host's three outcomes. -/
abbrev Result := Host.Outcome State Fault Refusal

/-- The start values of spec/10_state.md R20 with every parameter at its default and nothing loaded: `In` is empty and
no byte of memory is listed (log entries 2 to 4). -/
def State.reset : State where
  a := 0x0000
  x := 0x0000
  sp := defaultParams.userSpInit
  pc := loadAddress
  n := false
  z := false
  v := false
  c := false
  ir := 0x00
  spec := 0x0000
  mem := []
  input := []
  output := []
  halted := false
  fault := none
  params := defaultParams

end Sys2Proof.Machine
end

