-- ==== Sys2Proof/Machine/Ops.lean ====
section
/-! DEFINITION. The named operations over memory, registers and streams, and the trap: taken and returned from. -/

namespace Sys2Proof.Machine

/-! ### Memory as data -/

/-- The byte at address `a`: the listed one, else what an unlisted address reads as. -/
def Memory.read : Memory → Nat → Byte
  | [], _ => unlistedByte
  | (k, b) :: rest, a => if k = a then b else Memory.read rest a

/-- Memory without an entry for address `a`. -/
def Memory.erase (m : Memory) (a : Nat) : Memory := m.filter (fun cell => cell.1 != a)

/-- Put an entry for address `a` before the first entry of a higher address. -/
def Memory.insert : Memory → Nat → Byte → Memory
  | [], a, v => [(a, v)]
  | (k, b) :: rest, a, v => if a < k then (a, v) :: (k, b) :: rest else (k, b) :: Memory.insert rest a v

/-- Make the byte at address `a` be `v`, keeping the canonical form: addresses rising, and no entry that says what an
unlisted address reads as. -/
def Memory.write (m : Memory) (a : Nat) (v : Byte) : Memory :=
  if v = unlistedByte then m.erase a else (m.erase a).insert a v

/-- The canonical form from address `lo` upward. -/
def Memory.wfFrom : Nat → Memory → Bool
  | _, [] => true
  | lo, (k, b) :: rest => decide (lo ≤ k) && decide (k < 65536) && decide (b ≠ unlistedByte) && Memory.wfFrom (k + 1) rest

/-- The canonical form: addresses strictly rising and below 65536 (R16), no entry equal to what an unlisted address
reads as. -/
def Memory.wf (m : Memory) : Bool := Memory.wfFrom 0 m

/-- Place bytes from address `a` upward, modulo 65536: what a host does when it copies an image (R230), ROM or not. -/
def Memory.place : Memory → Nat → List Byte → Memory
  | m, _, [] => m
  | m, a, b :: bs => Memory.place (m.write (a % 65536) b) (a + 1) bs

/-! ### How an operation ends -/

/-- The host's three outcomes, from an operation that may stop. -/
def finish : Except Stop State → Result
  | .ok s => .next s
  | .error (.fault f) => .fault f
  | .error (.refused r) => .refused r

/-- The state R208 says a fault leaves: as before the fetch of the faulting instruction, with `Fault` set. -/
def State.afterFault (s : State) (f : Fault) : State := { s with fault := some f }

/-! ### Access primitives -/

/-- `MemRead(a, 1)` (R31). -/
def State.read1 (s : State) (a : Word) : Byte := s.mem.read a.toNat

/-- `MemRead(a, 2)` (R32): big-endian, the second byte at `(a + 1) mod 65536`. -/
def State.read2 (s : State) (a : Word) : Word := wordOf (s.read1 a) (s.read1 (a + 1))

/-- The address is at or above `ROM_START` (R35). -/
def State.inRom (s : State) (a : Word) : Bool := decide (s.params.romStart.val ≤ a.toNat)

/-- `MemWrite(a, 1, v)` (R33, R35). -/
def State.write1 (s : State) (a : Word) (v : Byte) : Except Stop State :=
  if s.inRom a then
    match s.params.romWrite with
    | .ignore => .ok s
    | .fault => .error (.fault (.romWrite a))
  else .ok { s with mem := s.mem.write a.toNat v }

/-- `MemWrite(a, 2, w)` (R34): the more significant byte first, the ROM test for each byte separately. -/
def State.write2 (s : State) (a : Word) (w : Word) : Except Stop State := do
  let s' ← s.write1 a (hiByte w)
  s'.write1 (a + 1) (loByte w)

/-! ### Registers -/

/-- `x[r]` (R10). -/
def State.reg (s : State) : Reg → Word
  | .a => s.a
  | .x => s.x

/-- `x[r] <- w` (R10). -/
def State.setReg (s : State) (r : Reg) (w : Word) : State :=
  match r with
  | .a => { s with a := w }
  | .x => { s with x := w }

/-! ### The streams -/

/-- What `InPop()` does on the empty stream: `INPUT_EOF` decides (R17). -/
def State.outOfInput (s : State) : Stop :=
  match s.params.inputEof with
  | .fault => .fault .inputExhausted
  | .block => .refused .waitingForInput

/-- `InPop()` (R17): the first byte of `In`, and the state without it. -/
def State.inPop (s : State) : Except Stop (Byte × State) :=
  match s.input with
  | [] => .error s.outOfInput
  | b :: rest => .ok (b, { s with input := rest })

/-- `OutPut(b)` for each byte in order (R18). -/
def State.outPut (s : State) (bs : List Byte) : State := { s with output := s.output ++ bs }

/-! ### The trap -/

/-- `N ++ Z ++ V ++ C`, N the most significant of the four (R103, R204). -/
def State.flagsNibble (s : State) : BitVec 4 :=
  BitVec.ofBool s.n ++ BitVec.ofBool s.z ++ BitVec.ofBool s.v ++ BitVec.ofBool s.c

/-- `Trap()` (spec/60_exceptions.md R203): the frame of R204 below the word at 0xFFFA, SP at the frame, PC from the word
at 0xFFFE. Steps in the order of the pseudocode, so the handler's address is read after the frame is written (log
entry 9). A, X and the flags keep their values. -/
def takeTrap (s : State) : Except Stop State := do
  let t := s.read2 sysSpVector
  let s1 ← s.write1 (t - 1) s.ir
  let s2 ← s1.write2 (t - 3) s.sp
  let s3 ← s2.write2 (t - 5) s.pc
  let s4 ← s3.write2 (t - 7) s.x
  let s5 ← s4.write2 (t - 9) s.a
  let s6 ← s5.write1 (t - 10) (0b0000#4 ++ s.flagsNibble)
  return { s6 with sp := t - 10, pc := s6.read2 trapPcVector }

/-- RETTR's effect (spec/40_control.md R101): the flags, A, X, PC and SP from the frame at SP (R204); memory is not
changed and bits 7 to 4 of the flags byte are ignored. -/
def returnFromTrap (s : State) : State :=
  let f := s.read1 s.sp
  { s with
    n := f.getLsbD 3
    z := f.getLsbD 2
    v := f.getLsbD 1
    c := f.getLsbD 0
    a := s.read2 (s.sp + 1)
    x := s.read2 (s.sp + 3)
    pc := s.read2 (s.sp + 5)
    sp := s.read2 (s.sp + 7) }

/-- Dispatch of a trap instruction (spec/43_traps.md R129): its service effect in one step, or the trap. -/
def dispatchTrap (s : State) (service : Except Stop State) : Result :=
  match s.params.trapModel with
  | .service => finish service
  | .hardware => finish (takeTrap s)

end Sys2Proof.Machine
end

