-- ==== Sys2Proof/Machine/Flags.lean ====
section
/-! DEFINITION. The flag helpers (spec/46_arith_logic.md R150 to R152). -/

namespace Sys2Proof.Machine

/-- `SetNZ(w)` (R150): N is bit 15, Z says that all 16 bits are 0; V and C keep their values. -/
def State.setNZ (s : State) (w : Word) : State := { s with n := w.getLsbD 15, z := w == 0 }

/-- A 16-bit sum with its carry and overflow. -/
structure Sum16 where
  value : Word
  carry : Bool
  overflow : Bool
  deriving DecidableEq, Repr

/-- `Add16(a, b, cin)` (R151): C is bit 16 of the mathematical sum; V says that operands of one sign gave a sum of the
other. -/
def add16 (a b : Word) (cin : Bool) : Sum16 :=
  let t := a.toNat + b.toNat + cin.toNat
  let sum : Word := BitVec.ofNat 16 t
  { value := sum
    carry := decide (65536 ≤ t)
    overflow := a.getLsbD 15 == b.getLsbD 15 && sum.getLsbD 15 != a.getLsbD 15 }

/-- `Sub16(a, b)` (R152): the addition of the negated second operand, in the way `SUB_FLAGS` says. -/
def sub16 (how : SubFlags) (a b : Word) : Sum16 :=
  match how with
  | .adder => add16 a (~~~b) true
  | .negateThenAdd => add16 a (0 - b) false

/-- Write all four flags from a sum: N and Z from its value (R150), V and C as R151 says. -/
def State.setNZVC (s : State) (r : Sum16) : State :=
  { s.setNZ r.value with v := r.overflow, c := r.carry }

end Sys2Proof.Machine
end

