-- ==== Sys2Proof/Machine/Operands.lean ====
section
/-! DEFINITION. The operand of an instruction by its addressing mode (spec/30_encoding.md R60 to R70). SP and X are
those of the state the instruction starts with (R46, R69). -/

namespace Sys2Proof.Machine

/-- `EA(m)` (R61 to R67); none for the immediate mode, which has no address (R60). -/
def effectiveAddress (m : Mode) (spec : Word) (s : State) : Option Word :=
  match m with
  | .i => none
  | .d => some spec
  | .n => some (s.read2 spec)
  | .s => some (s.sp + spec)
  | .sf => some (s.read2 (s.sp + spec))
  | .x => some (spec + s.x)
  | .sx => some (s.sp + spec + s.x)
  | .sxf => some (s.read2 (s.sp + spec) + s.x)

/-- `Oprnd16(m)` (R69): the word operand. -/
def operand16 (m : Mode) (spec : Word) (s : State) : Word :=
  match effectiveAddress m spec s with
  | none => spec
  | some ea => s.read2 ea

/-- `Oprnd8(m)` (R69): the byte operand; with the immediate mode the less significant byte of `Spec` (R60). -/
def operand8 (m : Mode) (spec : Word) (s : State) : Byte :=
  match effectiveAddress m spec s with
  | none => loByte spec
  | some ea => s.read1 ea

/-- `AAA(a)` (R68): the mode a branch's 1-bit field stands for. -/
def aaaOf : BranchMode → Mode
  | .i => .i
  | .x => .x

/-- `Target` (spec/41_branch_call.md section 1): the word operand of a branch or CALL. -/
def branchTarget (a : BranchMode) (spec : Word) (s : State) : Word := operand16 (aaaOf a) spec s

/-- The modes the source lists for a destination (DECI, CHARI, STr, STBYTEr): all but the immediate one (R70). -/
def destinationModes : List Mode := [.d, .n, .s, .sf, .x, .sx, .sxf]

/-- The modes the source lists for STRO (R70). -/
def stringModes : List Mode := [.d, .n, .sf]

/-- The mode the source lists for NOP (R70). -/
def nopModes : List Mode := [.i]

/-- `raise IllegalAddressingMode(IR)` when the mode is not one of the listed ones (R54, R70). -/
def requireMode (legal : List Mode) (m : Mode) (s : State) : Except Stop Unit :=
  if legal.contains m then .ok () else .error (.fault (.illegalAddressingMode s.ir))

/-- `EA(m)` for an instruction whose legal modes are listed: an unlisted mode, or one without an address, raises
`IllegalAddressingMode(IR)` (R60, R70). -/
def operandAddress (legal : List Mode) (m : Mode) (spec : Word) (s : State) : Except Stop Word := do
  requireMode legal m s
  match effectiveAddress m spec s with
  | some ea => .ok ea
  | none => .error (.fault (.illegalAddressingMode s.ir))

end Sys2Proof.Machine
end

