-- ==== Sys2Proof/Machine/Arith.lean ====
section
/-! DEFINITION. ADDr, SUBr, ANDr, ORr, CPr (spec/46_arith_logic.md). The operand is read before the register is
written. -/

namespace Sys2Proof.Machine

/-- ADDr (R153). -/
def execAddr (r : Reg) (m : Mode) (spec : Word) (s : State) : Result :=
  let sum := add16 (s.reg r) (operand16 m spec s) false
  .next ((s.setReg r sum.value).setNZVC sum)

/-- SUBr (R154). -/
def execSubr (r : Reg) (m : Mode) (spec : Word) (s : State) : Result :=
  let diff := sub16 s.params.subFlags (s.reg r) (operand16 m spec s)
  .next ((s.setReg r diff.value).setNZVC diff)

/-- ANDr (R155): V and C keep their values. -/
def execAndr (r : Reg) (m : Mode) (spec : Word) (s : State) : Result :=
  let w := s.reg r &&& operand16 m spec s
  .next ((s.setReg r w).setNZ w)

/-- ORr (R156): V and C keep their values. -/
def execOrr (r : Reg) (m : Mode) (spec : Word) (s : State) : Result :=
  let w := s.reg r ||| operand16 m spec s
  .next ((s.setReg r w).setNZ w)

/-- CPr (R157): SUBr without the register write; N is not corrected by V. -/
def execCpr (r : Reg) (m : Mode) (spec : Word) (s : State) : Result :=
  .next (s.setNZVC (sub16 s.params.subFlags (s.reg r) (operand16 m spec s)))

end Sys2Proof.Machine
end

