-- ==== Sys2Proof/Machine/Branch.lean ====
section
/-! DEFINITION. The branches and CALL (spec/41_branch_call.md). -/

namespace Sys2Proof.Machine

/-- `if taken: PC <- Target`; an untaken branch leaves PC as the fetch left it. -/
def branchIf (taken : Bool) (a : BranchMode) (spec : Word) (s : State) : Result :=
  .next (if taken then { s with pc := branchTarget a spec s } else s)

/-- BR (R110). -/
def execBr (a : BranchMode) (spec : Word) (s : State) : Result := branchIf true a spec s

/-- BRLE (R111). -/
def execBrle (a : BranchMode) (spec : Word) (s : State) : Result := branchIf (s.n || s.z) a spec s

/-- BRLT (R112). -/
def execBrlt (a : BranchMode) (spec : Word) (s : State) : Result := branchIf s.n a spec s

/-- BREQ (R113). -/
def execBreq (a : BranchMode) (spec : Word) (s : State) : Result := branchIf s.z a spec s

/-- BRNE (R114). -/
def execBrne (a : BranchMode) (spec : Word) (s : State) : Result := branchIf (!s.z) a spec s

/-- BRGE (R115). -/
def execBrge (a : BranchMode) (spec : Word) (s : State) : Result := branchIf (!s.n) a spec s

/-- BRGT (R116). -/
def execBrgt (a : BranchMode) (spec : Word) (s : State) : Result := branchIf (!s.n && !s.z) a spec s

/-- BRV (R117). -/
def execBrv (a : BranchMode) (spec : Word) (s : State) : Result := branchIf s.v a spec s

/-- BRC (R118). -/
def execBrc (a : BranchMode) (spec : Word) (s : State) : Result := branchIf s.c a spec s

/-- CALL (R119): the target is read first, then the return address is pushed. -/
def execCall (a : BranchMode) (spec : Word) (s : State) : Result :=
  let target := branchTarget a spec s
  let sp := s.sp - 2
  finish do
    let s' ← { s with sp := sp }.write2 sp s.pc
    return { s' with pc := target }

end Sys2Proof.Machine
end

