-- ==== Sys2Proof/Machine/CharIO.lean ====
section
/-! DEFINITION. CHARI and CHARO (spec/44_char_io.md). -/

namespace Sys2Proof.Machine

/-- CHARI (R140). -/
def execChari (m : Mode) (spec : Word) (s : State) : Result :=
  finish do
    let addr ← operandAddress destinationModes m spec s
    let (c, s') ← s.inPop
    s'.write1 addr c

/-- CHARO (R141). -/
def execCharo (m : Mode) (spec : Word) (s : State) : Result := .next (s.outPut [operand8 m spec s])

end Sys2Proof.Machine
end

