-- ==== Sys2Proof/Machine/Control.lean ====
section
/-! DEFINITION. STOP, RETTR, MOVSPA, MOVFLGA (spec/40_control.md). Every meaning starts in the state the fetch leaves:
PC already points past the instruction (R12, R54). -/

namespace Sys2Proof.Machine

/-- STOP (R100). -/
def execStop (s : State) : Result := .next { s with halted := true }

/-- RETTR (R101). -/
def execRettr (s : State) : Result := .next (returnFromTrap s)

/-- MOVSPA (R102). -/
def execMovspa (s : State) : Result := .next { s with a := s.sp }

/-- MOVFLGA (R103): A[3:0] = NZVC, A[7:4] = 0, A[15:8] as `MOVFLGA_UPPER` says. -/
def execMovflga (s : State) : Result :=
  let upper : Byte :=
    match s.params.movflgaUpper with
    | .zero => 0
    | .preserve => hiByte s.a
  .next { s with a := wordOf upper (0b0000#4 ++ s.flagsNibble) }

end Sys2Proof.Machine
end

