-- ==== Sys2Proof/Machine/LoadStore.lean ====
section
/-! DEFINITION. LDr, LDBYTEr, STr, STBYTEr (spec/47_load_store.md). -/

namespace Sys2Proof.Machine

/-- LDr (R160). -/
def execLdr (r : Reg) (m : Mode) (spec : Word) (s : State) : Result :=
  let w := operand16 m spec s
  .next ((s.setReg r w).setNZ w)

/-- LDBYTEr (R161): the register's high byte is kept; N and Z from the whole register. -/
def execLdbyter (r : Reg) (m : Mode) (spec : Word) (s : State) : Result :=
  let w := wordOf (hiByte (s.reg r)) (operand8 m spec s)
  .next ((s.setReg r w).setNZ w)

/-- STr (R162). -/
def execStr (r : Reg) (m : Mode) (spec : Word) (s : State) : Result :=
  finish do
    let addr ← operandAddress destinationModes m spec s
    s.write2 addr (s.reg r)

/-- STBYTEr (R163): only the less significant byte of the register. -/
def execStbyter (r : Reg) (m : Mode) (spec : Word) (s : State) : Result :=
  finish do
    let addr ← operandAddress destinationModes m spec s
    s.write1 addr (loByte (s.reg r))

end Sys2Proof.Machine
end

