-- ==== Sys2Proof/Machine/Stack.lean ====
section
/-! DEFINITION. RETn, ADDSP, SUBSP (spec/45_stack.md). -/

namespace Sys2Proof.Machine

/-- RETn (R145): free `n` bytes of locals, pop the return address. -/
def execRetn (n : BitVec 3) (s : State) : Result :=
  let sp := s.sp + n.setWidth 16
  .next { s with pc := s.read2 sp, sp := sp + 2 }

/-- ADDSP (R146): the operand is addressed through the old SP. -/
def execAddsp (m : Mode) (spec : Word) (s : State) : Result :=
  let r := add16 s.sp (operand16 m spec s) false
  .next { s.setNZVC r with sp := r.value }

/-- SUBSP (R147): the operand is addressed through the old SP. -/
def execSubsp (m : Mode) (spec : Word) (s : State) : Result :=
  let r := sub16 s.params.subFlags s.sp (operand16 m spec s)
  .next { s.setNZVC r with sp := r.value }

end Sys2Proof.Machine
end

