-- ==== Sys2Proof/Machine/Decimal.lean ====
section
/-! DEFINITION. Decimal numerals in ASCII: the one DECI reads (spec/43_traps.md R135) and the one DECO writes (R137). -/

namespace Sys2Proof.Machine

/-- What `ReadDecimal()` finds in the input stream (R135). -/
inductive NumeralRead where
  /-- a numeral with its value, and the bytes after the one that ended it -/
  | numeral (value : Int) (rest : List Byte)
  /-- the byte `c` can neither start nor continue a numeral -/
  | invalid (c : Byte)
  /-- the stream ran out before the numeral's terminating byte -/
  | exhausted
  deriving DecidableEq, Repr

/-- An ASCII decimal digit, 0x30 to 0x39 (R90). -/
def isDigit (c : Byte) : Bool := decide (0x30#8 ≤ c) && decide (c ≤ 0x39#8)

/-- The value of an ASCII decimal digit. -/
def digitValue (c : Byte) : Nat := c.toNat - 0x30

/-- State DIGITS of R135: the first byte that is no digit ends the numeral and is consumed. -/
def readDigits (neg : Bool) (mag : Nat) : List Byte → NumeralRead
  | [] => .exhausted
  | c :: rest =>
    if isDigit c then readDigits neg (mag * 10 + digitValue c) rest
    else .numeral (if neg then -(mag : Int) else (mag : Int)) rest

/-- State SIGN of R135: a digit must follow the sign. -/
def readAfterSign (neg : Bool) : List Byte → NumeralRead
  | [] => .exhausted
  | c :: rest => if isDigit c then readDigits neg (digitValue c) rest else .invalid c

/-- State START of R135: leading spaces and line feeds, then a sign or a digit. -/
def readDecimal : List Byte → NumeralRead
  | [] => .exhausted
  | c :: rest =>
    if c = 0x20#8 ∨ c = 0x0A#8 then readDecimal rest
    else if c = 0x2B#8 then readAfterSign false rest
    else if c = 0x2D#8 then readAfterSign true rest
    else if isDigit c then readDigits false (digitValue c) rest
    else .invalid c

/-- The last `fuel` decimal digits of a number, most significant first, without leading zeros. -/
def decimalDigits : Nat → Nat → List Byte
  | 0, _ => []
  | fuel + 1, k =>
    if k < 10 then [BitVec.ofNat 8 (0x30 + k)]
    else decimalDigits fuel (k / 10) ++ [BitVec.ofNat 8 (0x30 + k % 10)]

/-- `DecimalText(s)` (R137); five digits hold every magnitude up to 32768. -/
def decimalText (k : Int) : List Byte :=
  (if k < 0 then [0x2D#8] else []) ++ decimalDigits 5 k.natAbs

end Sys2Proof.Machine
end

