-- ==== Sys2Proof/Machine/Traps.lean ====
section
/-! DEFINITION. The trap instructions NOPn, NOP, DECI, DECO, STRO (spec/43_traps.md): their service effect, or the trap,
as `TRAP_MODEL` says (R129). With `hardware` the addressing mode is not checked (R54, R70). -/

namespace Sys2Proof.Machine

/-- NOPn (R130): no effect; `nn` only tells the four apart. -/
def execNopn (_nn : BitVec 2) (s : State) : Result := dispatchTrap s (.ok s)

/-- NOP (R132): no effect; the operand specifier is ignored. -/
def execNop (m : Mode) (_spec : Word) (s : State) : Result :=
  dispatchTrap s do
    requireMode nopModes m s
    return s

/-- `ReadDecimal()` on the machine's input stream (R135): the value, and the state without the bytes consumed. -/
def State.popDecimal (s : State) : Except Stop (Int × State) :=
  match readDecimal s.input with
  | .numeral value rest => .ok (value, { s with input := rest })
  | .invalid c => .error (.fault (.invalidDeciInput c))
  | .exhausted => .error s.outOfInput

/-- DECI (R134): the value modulo 65536 into the operand's word; V says that it is outside -32768 to 32767; C keeps its
value. -/
def execDeci (m : Mode) (spec : Word) (s : State) : Result :=
  dispatchTrap s do
    let addr ← operandAddress destinationModes m spec s
    let (value, s1) ← s.popDecimal
    let w : Word := BitVec.ofInt 16 value
    let s2 ← s1.write2 addr w
    return { s2.setNZ w with v := decide (value < -32768) || decide (32767 < value) }

/-- DECO (R136). -/
def execDeco (m : Mode) (spec : Word) (s : State) : Result :=
  dispatchTrap s (.ok (s.outPut (decimalText (operand16 m spec s).toInt)))

/-- The bytes from address `a` up to the first 0x00, among the next `fuel` bytes; none if there is no 0x00 (R138). -/
def stringAt (s : State) (a : Word) : Nat → Option (List Byte)
  | 0 => none
  | fuel + 1 =>
    let b := s.read1 a
    if b = 0x00#8 then some []
    else (stringAt s (a + 1) fuel).map (b :: ·)

/-- STRO (R138): the string at the operand's address, searched through all 65536 bytes of memory. -/
def execStro (m : Mode) (spec : Word) (s : State) : Result :=
  dispatchTrap s do
    let addr ← operandAddress stringModes m spec s
    match stringAt s addr 65536 with
    | some bytes => .ok (s.outPut bytes)
    | none => .error (.fault .unterminatedString)

end Sys2Proof.Machine
end

