-- ==== Sys2Proof/Machine/Unary.lean ====
section
/-! DEFINITION. The unary register instructions (spec/42_unary_register.md). -/

namespace Sys2Proof.Machine

/-- NOTr (R120). -/
def execNotr (r : Reg) (s : State) : Result :=
  let w := ~~~(s.reg r)
  .next ((s.setReg r w).setNZ w)

/-- NEGr (R121): V only for 0x8000; C keeps its value. -/
def execNegr (r : Reg) (s : State) : Result :=
  let old := s.reg r
  let w := 0 - old
  .next { (s.setReg r w).setNZ w with v := old == 0x8000 }

/-- ASLr (R122). -/
def execAslr (r : Reg) (s : State) : Result :=
  let old := s.reg r
  let w := old <<< 1
  .next { (s.setReg r w).setNZ w with v := old.getLsbD 15 ^^ old.getLsbD 14, c := old.getLsbD 15 }

/-- ASRr (R123): V keeps its value. -/
def execAsrr (r : Reg) (s : State) : Result :=
  let old := s.reg r
  let w : Word := BitVec.ofBool (old.getLsbD 15) ++ old.extractLsb' 1 15
  .next { (s.setReg r w).setNZ w with c := old.getLsbD 0 }

/-- ROLr (R124): through C; N, Z and V keep their values. -/
def execRolr (r : Reg) (s : State) : Result :=
  let old := s.reg r
  let w : Word := old.extractLsb' 0 15 ++ BitVec.ofBool s.c
  .next { s.setReg r w with c := old.getLsbD 15 }

/-- RORr (R125): through C; N, Z and V keep their values. -/
def execRorr (r : Reg) (s : State) : Result :=
  let old := s.reg r
  let w : Word := BitVec.ofBool s.c ++ old.extractLsb' 1 15
  .next { s.setReg r w with c := old.getLsbD 0 }

end Sys2Proof.Machine
end

