-- ==== Sys2Proof/Machine/Dispatch.lean ====
section
/-! DEFINITION. One arm per instruction of spec/opcode_table.json (R55): which meaning runs. -/

namespace Sys2Proof.Machine

/-- What the instruction does, from the state the fetch leaves (R54). -/
def exec (i : Instr) (s : State) : Host.Outcome State Fault Refusal :=
  match i with
  | .stop => Sys2Proof.Machine.execStop s
  | .rettr => Sys2Proof.Machine.execRettr s
  | .movspa => Sys2Proof.Machine.execMovspa s
  | .movflga => Sys2Proof.Machine.execMovflga s
  | .br a spec => Sys2Proof.Machine.execBr a spec s
  | .brle a spec => Sys2Proof.Machine.execBrle a spec s
  | .brlt a spec => Sys2Proof.Machine.execBrlt a spec s
  | .breq a spec => Sys2Proof.Machine.execBreq a spec s
  | .brne a spec => Sys2Proof.Machine.execBrne a spec s
  | .brge a spec => Sys2Proof.Machine.execBrge a spec s
  | .brgt a spec => Sys2Proof.Machine.execBrgt a spec s
  | .brv a spec => Sys2Proof.Machine.execBrv a spec s
  | .brc a spec => Sys2Proof.Machine.execBrc a spec s
  | .call a spec => Sys2Proof.Machine.execCall a spec s
  | .notr r => Sys2Proof.Machine.execNotr r s
  | .negr r => Sys2Proof.Machine.execNegr r s
  | .aslr r => Sys2Proof.Machine.execAslr r s
  | .asrr r => Sys2Proof.Machine.execAsrr r s
  | .rolr r => Sys2Proof.Machine.execRolr r s
  | .rorr r => Sys2Proof.Machine.execRorr r s
  | .nopn nn => Sys2Proof.Machine.execNopn nn s
  | .nop m spec => Sys2Proof.Machine.execNop m spec s
  | .deci m spec => Sys2Proof.Machine.execDeci m spec s
  | .deco m spec => Sys2Proof.Machine.execDeco m spec s
  | .stro m spec => Sys2Proof.Machine.execStro m spec s
  | .chari m spec => Sys2Proof.Machine.execChari m spec s
  | .charo m spec => Sys2Proof.Machine.execCharo m spec s
  | .retn n => Sys2Proof.Machine.execRetn n s
  | .addsp m spec => Sys2Proof.Machine.execAddsp m spec s
  | .subsp m spec => Sys2Proof.Machine.execSubsp m spec s
  | .addr r m spec => Sys2Proof.Machine.execAddr r m spec s
  | .subr r m spec => Sys2Proof.Machine.execSubr r m spec s
  | .andr r m spec => Sys2Proof.Machine.execAndr r m spec s
  | .orr r m spec => Sys2Proof.Machine.execOrr r m spec s
  | .cpr r m spec => Sys2Proof.Machine.execCpr r m spec s
  | .ldr r m spec => Sys2Proof.Machine.execLdr r m spec s
  | .ldbyter r m spec => Sys2Proof.Machine.execLdbyter r m spec s
  | .str r m spec => Sys2Proof.Machine.execStr r m spec s
  | .stbyter r m spec => Sys2Proof.Machine.execStbyter r m spec s

end Sys2Proof.Machine
end

