-- ==== Sys2Proof/Machine/Fetch.lean ====
section
/-! DEFINITION. The fetch (spec/30_encoding.md R54, R52): the instruction at PC, and the state it executes in. -/

namespace Sys2Proof.Machine

/-- The three bytes from PC upward, addresses modulo 65536: all that the longest instruction has (R50, R52). -/
def State.fetchBytes (s : State) : List Byte := [s.read1 s.pc, s.read1 (s.pc + 1), s.read1 (s.pc + 2)]

/-- The instruction at PC: its specifier and, for a non-unary one, the operand specifier after it (R52, R55). -/
def State.fetchInstr (s : State) : Instr := decodeSpecifier (s.read1 s.pc) (s.read2 (s.pc + 1))

/-- The state after the fetch of R54: `IR` written, PC past the whole instruction, and `Spec` written by a non-unary
instruction only (R14). -/
def State.fetched (s : State) : State :=
  let ir := s.read1 s.pc
  if unarySpecifier ir then { s with ir := ir, pc := s.pc + 1 }
  else { s with ir := ir, spec := s.read2 (s.pc + 1), pc := s.pc + 3 }

/-- The three bytes of an opcode-table word placed where the next fetch reads, as the host's load places an image
(R230): ROM or not. -/
def State.placeAtPc (s : State) (nbits w : Nat) : State :=
  { s with mem := s.mem.place s.pc.toNat (tableBytes nbits w) }

end Sys2Proof.Machine
end

