-- ==== Sys2Proof/Machine/Cycle.lean ====
section
/-! DEFINITION. The execution cycle (spec/30_encoding.md R54). -/

namespace Sys2Proof.Machine

/-- One step (R54). When `Fault` is set or `Halted` is true there is none (R19): a faulted machine answers its fault
again, a halted one the refusal of its name (log entry 6). Otherwise: fetch, then execute. -/
def cycle (s : State) : Result :=
  match s.fault with
  | some f => .fault f
  | none => if s.halted then .refused .halted else exec s.fetchInstr s.fetched

end Sys2Proof.Machine
end

