-- ==== Sys2Proof/Machine/Step.lean ====
section
/-! DEFINITION. The step the host runs, and where it fetches its next instruction. -/

namespace Sys2Proof.Machine

/-- One step of the machine (spec/30_encoding.md R54). -/
def step (s : State) : Host.Outcome State Fault Refusal := cycle s

/-- `s` with an opcode-table word stored at PC, so that the next step runs it. It stands for the host's load of a program
(spec/70_reset_and_hazards.md R230; log entry 4). -/
def State.withFetchWord (s : State) (nbits w : Nat) : State := s.placeAtPc nbits w

end Sys2Proof.Machine
end

