-- ==== Sys2Proof/Machine/Ascii.lean ====
section
/-! DEFINITION. The ASCII table (spec/30_encoding.md R90). -/

namespace Sys2Proof.Machine

/-- A row of the table: a control code by its name, or a printable character. -/
inductive AsciiRow where
  | control (name : String)
  | printable (c : Char)
  deriving DecidableEq, Repr

/-- The names of the control codes 0 to 31, in order (R90). -/
def controlNames : List String :=
  ["NUL", "SOH", "STX", "ETX", "EOT", "ENQ", "ACK", "BEL", "BS", "HT", "LF", "VT", "FF", "CR", "SO", "SI"] ++
  ["DLE", "DC1", "DC2", "DC3", "DC4", "NAK", "SYN", "ETB", "CAN", "EM", "SUB", "ESC", "FS", "GS", "RS", "US"]

/-- The row of a code (R90): 0 to 31 and 127 are control codes, 32 to 126 the printable characters of the standard code;
a byte above 127 has none. -/
def asciiRow (code : Byte) : Option AsciiRow :=
  let k := code.toNat
  if k < 32 then controlNames[k]?.map .control
  else if k < 127 then some (.printable (Char.ofNat k))
  else if k = 127 then some (.control "DEL")
  else none

/-- The code of a character; none above 127 (R90, U18). -/
def asciiCode (c : Char) : Option Byte := if c.toNat < 128 then some (BitVec.ofNat 8 c.toNat) else none

end Sys2Proof.Machine
end

