-- ==== Sys2Proof/Machine/Assembler.lean ====
section
/-! DEFINITION. The assembler: from statements to an object program (spec/30_encoding.md R75, R77, R81 to R89). What the
spec leaves open of it is in log entries 18 to 20. -/

namespace Sys2Proof.Machine

/-! ### Mnemonics (R75) -/

/-- What an assembler mnemonic takes: nothing (unary), an operand with an optional i or x (BR to CALL), or an operand
with one of the eight modes (R76). -/
inductive Shape where
  | unary (i : Instr)
  | branch (build : BranchMode → Word → Instr)
  | general (build : Mode → Word → Instr)

/-- A mnemonic printed with a final `r` stands for two, ending in A (r = 0) and X (r = 1) (R75). -/
def forRegisters (stem : String) (shape : Reg → Shape) : List (String × Shape) :=
  [(stem ++ "A", shape .a), (stem ++ "X", shape .x)]

/-- STOP to MOVFLGA, NOT to ROR, NOP0 to NOP3, RET0 to RET7: the mnemonics without an operand. -/
def unaryMnemonics : List (String × Shape) :=
  List.flatten [
    [("STOP", .unary .stop), ("RETTR", .unary .rettr), ("MOVSPA", .unary .movspa), ("MOVFLGA", .unary .movflga)],
    forRegisters "NOT" (fun r => .unary (.notr r)),
    forRegisters "NEG" (fun r => .unary (.negr r)),
    forRegisters "ASL" (fun r => .unary (.aslr r)),
    forRegisters "ASR" (fun r => .unary (.asrr r)),
    forRegisters "ROL" (fun r => .unary (.rolr r)),
    forRegisters "ROR" (fun r => .unary (.rorr r)),
    [("NOP0", .unary (.nopn 0)), ("NOP1", .unary (.nopn 1)), ("NOP2", .unary (.nopn 2)), ("NOP3", .unary (.nopn 3))],
    [("RET0", .unary (.retn 0)), ("RET1", .unary (.retn 1)), ("RET2", .unary (.retn 2)), ("RET3", .unary (.retn 3))],
    [("RET4", .unary (.retn 4)), ("RET5", .unary (.retn 5)), ("RET6", .unary (.retn 6)), ("RET7", .unary (.retn 7))]]

/-- BR to CALL. -/
def branchMnemonics : List (String × Shape) :=
  [("BR", .branch .br), ("BRLE", .branch .brle), ("BRLT", .branch .brlt), ("BREQ", .branch .breq),
    ("BRNE", .branch .brne), ("BRGE", .branch .brge), ("BRGT", .branch .brgt), ("BRV", .branch .brv),
    ("BRC", .branch .brc), ("CALL", .branch .call)]

/-- NOP to SUBSP and ADD to STBYTE: the mnemonics whose operand has one of the eight modes. -/
def generalMnemonics : List (String × Shape) :=
  List.flatten [
    [("NOP", .general .nop), ("DECI", .general .deci), ("DECO", .general .deco), ("STRO", .general .stro)],
    [("CHARI", .general .chari), ("CHARO", .general .charo), ("ADDSP", .general .addsp), ("SUBSP", .general .subsp)],
    forRegisters "ADD" (fun r => .general (.addr r)),
    forRegisters "SUB" (fun r => .general (.subr r)),
    forRegisters "AND" (fun r => .general (.andr r)),
    forRegisters "OR" (fun r => .general (.orr r)),
    forRegisters "CP" (fun r => .general (.cpr r)),
    forRegisters "LD" (fun r => .general (.ldr r)),
    forRegisters "LDBYTE" (fun r => .general (.ldbyter r)),
    forRegisters "ST" (fun r => .general (.str r)),
    forRegisters "STBYTE" (fun r => .general (.stbyter r))]

/-- The 64 assembler mnemonics (R75). -/
def mnemonics : List (String × Shape) := List.flatten [unaryMnemonics, branchMnemonics, generalMnemonics]

/-! ### Statements (R76) -/

/-- A symbol, case-sensitive (R76). -/
abbrev Symbol := List Char

/-- An operand (R76). -/
inductive Operand where
  | decimal (value : Int)
  | hex (value : Nat)
  | character (code : Byte)
  | string (codes : List Byte)
  | symbol (name : Symbol)
  deriving DecidableEq, Repr

/-- What a statement says: one instruction (R77), or one of the eight directives (R81 to R88). -/
inductive Body where
  | unary (i : Instr)
  | branch (build : BranchMode → Word → Instr) (operand : Operand) (mode : BranchMode)
  | general (build : Mode → Word → Instr) (operand : Operand) (mode : Mode)
  | byte (operand : Operand)
  | word (operand : Operand)
  | block (operand : Operand)
  | ascii (codes : List Byte)
  | addrss (name : Symbol)
  | equate (operand : Operand)
  | finish
  | burn (operand : Operand)

/-- One statement, with the symbol it defines if any. -/
structure Statement where
  label : Option Symbol
  body : Body

/-- Why the assembler refuses a source. -/
inductive AsmError where
  /-- the line is not a statement of R76 -/
  | syntaxError
  /-- no such mnemonic or directive -/
  | unknownMnemonic
  /-- an addressing mode that the instruction does not allow (R70, R76) -/
  | illegalMode
  /-- a value outside what its place allows -/
  | outOfRange
  /-- not at most 8 characters starting with a letter (R76) -/
  | badSymbol
  /-- no line defines the symbol, or its definition rests on its own value (log entry 20) -/
  | undefinedSymbol
  /-- a symbol defined on two lines (log entry 20) -/
  | duplicateSymbol
  /-- `.EQUATE` without a symbol (R86) -/
  | equateWithoutSymbol
  /-- no `.END` (R87) -/
  | missingEnd
  /-- a statement after `.END` (R87) -/
  | statementAfterEnd
  /-- a second `.BURN` (R88) -/
  | secondBurn
  /-- more bytes than there are addresses for -/
  | tooLong
  /-- an instruction longer or shorter than its statement's kind; no source text gives one (log entry 20) -/
  | wrongLength
  deriving DecidableEq, Repr

/-! ### Values -/

/-- Symbols with their values as R76, R86 and R89 give them, before the shift of `.BURN`. -/
abbrev SymbolTable := List (Symbol × Int)

/-- The value of a symbol when every symbol's value is shifted by `shift` (R88; 0 without `.BURN`); a shifted value is
taken modulo 65536, as addresses are (log entry 20). -/
def SymbolTable.lookup (table : SymbolTable) (shift : Int) (name : Symbol) : Except AsmError Int :=
  match table.find? (fun row => row.1 == name) with
  | none => .error .undefinedSymbol
  | some (_, value) => .ok (if shift = 0 then value else (value + shift) % 65536)

/-- `lo ≤ value ≤ hi`, or refuse. -/
def inRange (lo hi value : Int) : Except AsmError Int :=
  if lo ≤ value ∧ value ≤ hi then .ok value else .error .outOfRange

/-- The value of an operand (R76): a decimal constant of -32768 to 65535, a hexadecimal one of up to 4 digits, a
character's code, a string of one or two bytes (the first the more significant of two; log entry 19), or a symbol's
value. -/
def Operand.value (lookup : Symbol → Except AsmError Int) : Operand → Except AsmError Int
  | .decimal k => inRange (-32768) 65535 k
  | .hex k => inRange 0 65535 k
  | .character code => .ok code.toNat
  | .string [lo] => .ok lo.toNat
  | .string [hi, lo] => .ok (wordOf hi lo).toNat
  | .string _ => .error .outOfRange
  | .symbol name => lookup name

/-- A word operand: -32768 to 65535, taken modulo 65536. -/
def Operand.wordValue (lookup : Symbol → Except AsmError Int) (o : Operand) : Except AsmError Word := do
  let k ← o.value lookup
  let k ← inRange (-32768) 65535 k
  return BitVec.ofInt 16 k

/-- A size or an address: 0 to 65535. -/
def Operand.natValue (lookup : Symbol → Except AsmError Int) (o : Operand) : Except AsmError Nat := do
  let k ← o.value lookup
  let k ← inRange 0 65535 k
  return k.toNat

/-! ### Sizes and symbols -/

/-- How many bytes a statement reserves, with the values of the symbols (R50, R81 to R88). -/
def Body.size (lookup : Symbol → Except AsmError Int) : Body → Except AsmError Nat
  | .unary _ => .ok 1
  | .branch _ _ _ => .ok 3
  | .general _ _ _ => .ok 3
  | .byte _ => .ok 1
  | .word _ => .ok 2
  | .block o => o.natValue lookup
  | .ascii codes => .ok codes.length
  | .addrss _ => .ok 2
  | .equate _ => .ok 0
  | .finish => .ok 0
  | .burn _ => .ok 0

/-- How many bytes statements reserve. -/
def reservedBytes (lookup : Symbol → Except AsmError Int) : List Statement → Except AsmError Nat
  | [] => .ok 0
  | st :: rest => do
    let here ← st.body.size lookup
    let after ← reservedBytes lookup rest
    return here + after

/-- What a label on a statement stands for: the operand's value at `.EQUATE` (R86), else the address of the statement's
first byte, the number of bytes before it (R76, R89). -/
def Body.labelValue (lookup : Symbol → Except AsmError Int) (offset : Except AsmError Nat) : Body → Except AsmError Int
  | .equate o => o.value lookup
  | .unary _ | .branch _ _ _ | .general _ _ _ | .byte _ | .word _ | .block _ | .ascii _ | .addrss _ | .finish | .burn _ => do
    let k ← offset
    return ((k % 65536 : Nat) : Int)

/-- The symbols whose values follow from the values already known, `offset` being the number of bytes before the first
statement, if that is known. -/
def symbolsFrom (known : SymbolTable) (offset : Except AsmError Nat) : List Statement → SymbolTable
  | [] => []
  | st :: rest =>
    let next : Except AsmError Nat := do
      let before ← offset
      let size ← st.body.size (known.lookup 0)
      return before + size
    match st.label, st.body.labelValue (known.lookup 0) offset with
    | some name, .ok value => (name, value) :: symbolsFrom known next rest
    | _, _ => symbolsFrom known next rest

/-- Follow the definitions, in whatever order they stand, until no further symbol gets a value; `fuel` bounds the
rounds, and each round but the last gives at least one symbol more. -/
def settleSymbols (statements : List Statement) : Nat → SymbolTable → SymbolTable
  | 0, known => known
  | fuel + 1, known =>
    let next := symbolsFrom known (.ok 0) statements
    if next.length = known.length then next else settleSymbols statements fuel next

/-- The symbols of a source. -/
def symbolTable (statements : List Statement) : SymbolTable := settleSymbols statements (statements.length + 1) []

/-- At most 8 characters, a letter first (R76); letters, digits and underscores after it (log entry 18). -/
def validSymbol : Symbol → Bool
  | [] => false
  | c :: cs => c.isAlpha && decide (cs.length < 8) && cs.all (fun d => d.isAlphanum || d == '_')

/-! ### Bytes -/

/-- The bytes of an instruction, if the mode is one it allows (R70, R76) and they are as many as its statement
reserves (every row of `mnemonics` has its own length). -/
def instrBytes (size : Nat) (i : Instr) : Except AsmError (List Byte) :=
  if !i.wellFormed then .error .illegalMode
  else if (encode i).length != size then .error .wrongLength
  else .ok (encode i)

/-- Two bytes, most significant first (R82, R85). -/
def wordBytes (w : Word) : List Byte := [hiByte w, loByte w]

/-- The bytes a statement emits when every symbol's value is shifted by `shift` (R77, R81 to R88). A number of bytes and
the place of `.BURN` come before the shift, so their symbols are not shifted (log entry 20). -/
def Body.bytes (table : SymbolTable) (shift : Int) : Body → Except AsmError (List Byte)
  | .unary i => instrBytes 1 i
  | .branch build o mode => do
    let w ← o.wordValue (table.lookup shift)
    instrBytes 3 (build mode w)
  | .general build o mode => do
    let w ← o.wordValue (table.lookup shift)
    instrBytes 3 (build mode w)
  | .byte o => do
    let k ← o.value (table.lookup shift)
    let k ← inRange (-128) 255 k
    return [BitVec.ofInt 8 k]
  | .word o => do
    let w ← o.wordValue (table.lookup shift)
    return wordBytes w
  | .block o => do
    let k ← o.natValue (table.lookup 0)
    return List.replicate k 0x00#8
  | .ascii codes => .ok codes
  | .addrss name => do
    let k ← table.lookup shift name
    return wordBytes (BitVec.ofInt 16 k)
  | .equate o => do
    let _ ← o.value (table.lookup 0)
    return []
  | .finish => .ok []
  | .burn o => do
    let _ ← o.natValue (table.lookup 0)
    return []

/-- The bytes of statements in order. -/
def bytesOf (table : SymbolTable) (shift : Int) : List Statement → Except AsmError (List Byte)
  | [] => .ok []
  | st :: rest => do
    let here ← st.body.bytes table shift
    let after ← bytesOf table shift rest
    return here ++ after

/-! ### The whole -/

def Body.isBurn : Body → Bool
  | .burn _ => true
  | _ => false

def Body.isFinish : Body → Bool
  | .finish => true
  | _ => false

/-- `.END` is required and comes last (R87). -/
def checkFinish : List Statement → Except AsmError Unit
  | [] => .error .missingEnd
  | st :: rest =>
    if st.body.isFinish then (if rest.isEmpty then .ok () else .error .statementAfterEnd)
    else checkFinish rest

/-- Every symbol is well formed (R76) and defined once, and `.EQUATE` has one (R86); `seen` are those of earlier
statements. -/
def checkLabels (seen : List Symbol) : List Statement → Except AsmError Unit
  | [] => .ok ()
  | st :: rest =>
    match st.label, st.body with
    | none, .equate _ => .error .equateWithoutSymbol
    | none, _ => checkLabels seen rest
    | some name, _ =>
      if !validSymbol name then .error .badSymbol
      else if seen.contains name then .error .duplicateSymbol
      else checkLabels (name :: seen) rest

/-- The operand of the first `.BURN`, with the statements before it and those after it. -/
def splitAtBurn : List Statement → Option (List Statement × Operand × List Statement)
  | [] => none
  | st :: rest =>
    match st.body with
    | .burn o => some ([], o, rest)
    | _ => (splitAtBurn rest).map (fun (before, o, after) => (st :: before, o, after))

/-- An object program: its bytes, and the address of the first (R88, R89). -/
structure ObjectProgram where
  origin : Word
  bytes : List Byte
  deriving DecidableEq, Repr

/-- An application: the bytes of all statements, for address 0x0000 upward (R89). -/
def assembleApplication (table : SymbolTable) (statements : List Statement) : Except AsmError ObjectProgram := do
  let bytes ← bytesOf table 0 statements
  if 65536 < bytes.length then .error .tooLong
  else return { origin := 0x0000, bytes := bytes }

/-- An operating system (R88): the bytes of the statements after `.BURN`, the last of them at its operand, every
symbol's value moved with them. The statements before it are checked as all are (R76) and emit nothing. -/
def assembleBurned (table : SymbolTable) (before : List Statement) (o : Operand) (after : List Statement) :
    Except AsmError ObjectProgram := do
  let last ← o.natValue (table.lookup 0)
  let start ← reservedBytes (table.lookup 0) before
  let length ← reservedBytes (table.lookup 0) after
  if last + 1 < length then .error .tooLong
  else do
    let origin := last + 1 - length
    let shift : Int := (origin : Int) - (start : Int)
    let _ ← bytesOf table shift before
    let bytes ← bytesOf table shift after
    return { origin := BitVec.ofNat 16 origin, bytes := bytes }

/-- Assemble statements (R76, R87 to R89). -/
def assemble (statements : List Statement) : Except AsmError ObjectProgram := do
  checkFinish statements
  checkLabels [] statements
  let table := symbolTable statements
  match splitAtBurn statements with
  | none => assembleApplication table statements
  | some (before, o, after) =>
    if after.any (fun st => st.body.isBurn) then .error .secondBurn
    else assembleBurned table before o after

end Sys2Proof.Machine
end

