-- ==== Sys2Proof/Machine/AsmText.lean ====
section
/-! DEFINITION. The assembler's source text (spec/30_encoding.md R76): one statement per line,
`[symbol:] mnemonic [operand[,letters]] [;comment]`. What R76 leaves open is in log entries 18 and 21. -/

namespace Sys2Proof.Machine

/-! ### Characters -/

/-- What separates the parts of a line. -/
def isBlank (c : Char) : Bool := c == ' ' || c == '\t' || c == '\r'

/-- A character of a symbol (log entry 18). -/
def isSymbolChar (c : Char) : Bool := c.isAlphanum || c == '_'

def skipBlanks (cs : List Char) : List Char := cs.dropWhile isBlank

/-- Nothing more stands on the line but a comment. -/
def lineDone (cs : List Char) : Bool :=
  match skipBlanks cs with
  | [] => true
  | c :: _ => c == ';'

/-- Mnemonics, directives and mode letters are not case-sensitive (R76). -/
def sameWord (cs : List Char) (word : String) : Bool := cs.map Char.toUpper == word.toList

/-- The lines of a text. -/
def splitLines : List Char → List (List Char)
  | [] => [[]]
  | c :: cs =>
    if c == '\n' then [] :: splitLines cs
    else
      match splitLines cs with
      | [] => [[c]]
      | line :: lines => (c :: line) :: lines

/-! ### Constants -/

def hexDigitValue (c : Char) : Option Nat :=
  let k := c.toNat
  if 48 ≤ k ∧ k ≤ 57 then some (k - 48)
  else if 65 ≤ k ∧ k ≤ 70 then some (k - 55)
  else if 97 ≤ k ∧ k ≤ 102 then some (k - 87)
  else none

/-- The number a list of digits says in the base. -/
def numberOf (base : Nat) (digits : List Char) : Nat :=
  digits.foldl (fun acc c => acc * base + (hexDigitValue c).getD 0) 0

/-- The one-letter escapes of R76. -/
def escapeCode (c : Char) : Option Byte :=
  if c == 'n' then some 0x0A#8
  else if c == 't' then some 0x09#8
  else if c == 'b' then some 0x08#8
  else if c == 'f' then some 0x0C#8
  else if c == 'r' then some 0x0D#8
  else if c == 'v' then some 0x0B#8
  else if c.toNat == 0x5C || c.toNat == 0x27 || c.toNat == 0x22 then asciiCode c
  else none

/-- One character of a constant, escapes read (R76): its code (R90) and the text after it. DESIGN CHOICE (log entry 21):
only a backslash has to be escaped, so a quote or a control character may stand for itself. -/
def readCharacter : List Char → Option (Byte × List Char)
  | [] => none
  | c :: rest =>
    if c.toNat == 0x5C then
      match rest with
      | 'x' :: h :: l :: rest' =>
        match hexDigitValue h, hexDigitValue l with
        | some h, some l => some (BitVec.ofNat 8 (16 * h + l), rest')
        | _, _ => none
      | e :: rest' => (escapeCode e).map (fun code => (code, rest'))
      | [] => none
    else (asciiCode c).map (fun code => (code, rest))

/-- The characters of a string up to its closing double quote (0x22), and the text after it; `fuel` bounds their
number. -/
def readString : Nat → List Char → Option (List Byte × List Char)
  | 0, _ => none
  | _ + 1, [] => none
  | fuel + 1, c :: rest =>
    if c.toNat == 0x22 then some ([], rest)
    else do
      let (code, rest') ← readCharacter (c :: rest)
      let (codes, rest'') ← readString fuel rest'
      return (code :: codes, rest'')

/-- A character constant after its opening single quote (0x27). DESIGN CHOICE (log entry 21): its character may be a
single quote without a backslash, though R76 has the escape for it. -/
def readCharacterConstant (cs : List Char) : Option (Operand × List Char) := do
  let (code, rest) ← readCharacter cs
  match rest with
  | q :: rest' => if q.toNat == 0x27 then some (.character code, rest') else none
  | [] => none

/-- A decimal constant: at least one digit, leading zeros allowed (DESIGN CHOICE, log entry 21). -/
def readDecimalConstant (neg : Bool) (cs : List Char) : Option (Operand × List Char) :=
  let digits := cs.takeWhile Char.isDigit
  let k : Int := numberOf 10 digits
  if digits.isEmpty then none else some (.decimal (if neg then -k else k), cs.dropWhile Char.isDigit)

/-- A hexadecimal constant after its `0x`: one to four digits. -/
def readHexConstant (cs : List Char) : Option (Operand × List Char) :=
  let isHex := fun c => (hexDigitValue c).isSome
  let digits := cs.takeWhile isHex
  if digits.isEmpty || decide (4 < digits.length) then none else some (.hex (numberOf 16 digits), cs.dropWhile isHex)

/-- An operand (R76) and the text after it. -/
def readOperand : List Char → Option (Operand × List Char)
  | [] => none
  | '-' :: rest => readDecimalConstant true rest
  | '0' :: 'x' :: rest => readHexConstant rest
  | '0' :: 'X' :: rest => readHexConstant rest
  | c :: rest =>
    if c.toNat == 0x27 then readCharacterConstant rest
    else if c.toNat == 0x22 then (readString (rest.length + 1) rest).map (fun (codes, rest') => (.string codes, rest'))
    else if c.isDigit then readDecimalConstant false (c :: rest)
    else if c.isAlpha then some (.symbol ((c :: rest).takeWhile isSymbolChar), (c :: rest).dropWhile isSymbolChar)
    else none

/-! ### Statements -/

/-- The mode letters (R76). -/
def modeOfLetters (cs : List Char) : Option Mode :=
  if sameWord cs "I" then some .i
  else if sameWord cs "D" then some .d
  else if sameWord cs "N" then some .n
  else if sameWord cs "S" then some .s
  else if sameWord cs "SF" then some .sf
  else if sameWord cs "X" then some .x
  else if sameWord cs "SX" then some .sx
  else if sameWord cs "SXF" then some .sxf
  else none

/-- The rest of a line after an operand: nothing, or a comma and mode letters (R76). DESIGN CHOICE (log entry 21): blanks
may stand around the comma. -/
def readMode (cs : List Char) : Except AsmError (Option Mode) :=
  match skipBlanks cs with
  | ',' :: rest =>
    let rest := skipBlanks rest
    if lineDone (rest.dropWhile Char.isAlpha) then
      match modeOfLetters (rest.takeWhile Char.isAlpha) with
      | some mode => .ok (some mode)
      | none => .error .syntaxError
    else .error .syntaxError
  | rest => if lineDone rest then .ok none else .error .syntaxError

/-- The one operand of a directive; no blank need stand before it (DESIGN CHOICE, log entry 21). -/
def readOnlyOperand (cs : List Char) : Except AsmError Operand :=
  match readOperand (skipBlanks cs) with
  | some (o, rest) => if lineDone rest then .ok o else .error .syntaxError
  | none => .error .syntaxError

/-- A directive by its name without the dot (R81 to R88). -/
def parseDirective (name rest : List Char) : Except AsmError Body :=
  if sameWord name "END" then (if lineDone rest then .ok .finish else .error .syntaxError)
  else if sameWord name "BYTE" then (readOnlyOperand rest).map .byte
  else if sameWord name "WORD" then (readOnlyOperand rest).map .word
  else if sameWord name "BLOCK" then (readOnlyOperand rest).map .block
  else if sameWord name "EQUATE" then (readOnlyOperand rest).map .equate
  else if sameWord name "BURN" then (readOnlyOperand rest).map .burn
  else if sameWord name "ASCII" then do
    match ← readOnlyOperand rest with
    | .string codes => .ok (.ascii codes)
    | _ => .error .syntaxError
  else if sameWord name "ADDRSS" then do
    match ← readOnlyOperand rest with
    | .symbol symbol => .ok (.addrss symbol)
    | _ => .error .syntaxError
  else .error .unknownMnemonic

/-- An instruction by its mnemonic (R75, R76): the mode may be left out of BR to CALL only, and is then i. DESIGN CHOICE
(log entry 21): no blank need stand between the mnemonic and the operand. -/
def parseInstruction (name rest : List Char) : Except AsmError Body :=
  match mnemonics.find? (fun row => sameWord name row.1) with
  | none => .error .unknownMnemonic
  | some (_, .unary i) => if lineDone rest then .ok (.unary i) else .error .syntaxError
  | some (_, .branch build) =>
    match readOperand (skipBlanks rest) with
    | none => .error .syntaxError
    | some (o, rest') => do
      match ← readMode rest' with
      | none => .ok (.branch build o .i)
      | some .i => .ok (.branch build o .i)
      | some .x => .ok (.branch build o .x)
      | some _ => .error .illegalMode
  | some (_, .general build) =>
    match readOperand (skipBlanks rest) with
    | none => .error .syntaxError
    | some (o, rest') => do
      match ← readMode rest' with
      | none => .error .syntaxError
      | some mode => .ok (.general build o mode)

/-- A directive or an instruction: its name goes as far as letters (and digits in a mnemonic) do, and no blank need follow
it (DESIGN CHOICE, log entry 21). -/
def parseBody (cs : List Char) : Except AsmError Body :=
  match cs with
  | '.' :: rest => parseDirective (rest.takeWhile Char.isAlpha) (rest.dropWhile Char.isAlpha)
  | _ => parseInstruction (cs.takeWhile Char.isAlphanum) (cs.dropWhile Char.isAlphanum)

/-- One line (R76): none if it is blank or only a comment. DESIGN CHOICE (log entries 18 and 21): blanks may stand before
a label and after its colon, not between the two. -/
def parseLine (line : List Char) : Except AsmError (Option Statement) :=
  let cs := skipBlanks line
  if lineDone cs then .ok none
  else
    match cs.dropWhile isSymbolChar with
    | ':' :: rest => do
      let body ← parseBody (skipBlanks rest)
      return some { label := some (cs.takeWhile isSymbolChar), body := body }
    | _ => do
      let body ← parseBody cs
      return some { label := none, body := body }

/-- The statements of a list of lines. -/
def parseLines : List (List Char) → Except AsmError (List Statement)
  | [] => .ok []
  | line :: lines => do
    let here ← parseLine line
    let after ← parseLines lines
    match here with
    | none => return after
    | some st => return st :: after

/-- Assemble a source text (R76, R89). -/
def assembleText (text : List Char) : Except AsmError ObjectProgram := do
  let statements ← parseLines (splitLines text)
  assemble statements

end Sys2Proof.Machine
end

