-- ==== Sys2Proof/Machine/Boot.lean ====
section
/-! DEFINITION. The host's start of a run (spec/70_reset_and_hazards.md R230, R231; spec/10_state.md R20). -/

namespace Sys2Proof.Machine

/-- `INIT_REGS` (R4, R20): the registers, flags and latches at the start of a run are zero, or any values. -/
inductive InitRegs where
  | zero
  | any (a x : Word) (n z v c : Bool) (ir : Byte) (spec : Word)
  deriving DecidableEq, Repr

/-- `INIT_MEM` (R4, R20): memory outside the images is zero, or any bytes, the bytes from address 0 upward given (those
not given are zero). -/
inductive InitMem where
  | zero
  | any (bytes : List Byte)
  deriving DecidableEq, Repr

/-- Step 1 of R230: the fill of memory. -/
def filledMemory : InitMem → Memory
  | .zero => []
  | .any bytes => Memory.place [] 0 (bytes.take 65536)

/-- Steps 1 to 3 of R230: the fill, then the program at `LOAD_ADDRESS`, then an operating system image whose last byte
is at 0xFFFF. -/
def loadedMemory (fill : InitMem) (program os : List Byte) : Memory :=
  ((filledMemory fill).place loadAddress.toNat program).place (65536 - os.length) os

/-- Step 3 of R230: an installed operating system image is ROM from its first address on; without one `ROM_START` stays
as it is (0x10000, no ROM, by default). -/
def installedParams (p : Params) (os : List Byte) : Params :=
  if os.isEmpty then p
  else { p with romStart := ⟨65536 - os.length, Nat.lt_of_le_of_lt (Nat.sub_le _ _) (by decide)⟩ }

/-- Step 4 of R230, `INIT_REGS`: the registers and flags a run starts with. -/
def State.initRegs (s : State) : InitRegs → State
  | .zero => { s with a := 0, x := 0, n := false, z := false, v := false, c := false, ir := 0, spec := 0 }
  | .any a x n z v c ir spec => { s with a := a, x := x, n := n, z := z, v := v, c := c, ir := ir, spec := spec }

/-- `TRAP_MODEL = hardware` needs an operating system from the host (spec/93_implementation_defined.md U12): an image, or
one laid out in the fill of memory. -/
def trapsAreServed (p : Params) (fill : InitMem) (os : List Byte) : Bool :=
  match p.trapModel, fill with
  | .service, _ => true
  | .hardware, .zero => !os.isEmpty
  | .hardware, .any _ => true

/-- Steps 4 and 5 of R230: the machine before a first step at 0x0000, with the host's registers, stack pointer and
input, nothing output and no run ended. Memory and the parameters stay. -/
def State.ready (s : State) (regs : InitRegs) (sp : Word) (input : List Byte) : State :=
  { s with sp := sp, pc := loadAddress, input := input, output := [], halted := false, fault := none }.initRegs regs

/-- The direct start of R230: the state the host leaves before the first step. None: an image longer than 65536 bytes is
refused, and `TRAP_MODEL = hardware` without an operating system (U12). SP is `USER_SP_INIT`, or the word at 0xFFF8 when
an operating system image is installed. -/
def State.start (p : Params) (regs : InitRegs) (fill : InitMem) (program os input : List Byte) : Option State :=
  if program.length ≤ 65536 ∧ os.length ≤ 65536 ∧ trapsAreServed p fill os then
    let loaded : State := { State.reset with mem := loadedMemory fill program os, params := installedParams p os }
    some (loaded.ready regs (if os.isEmpty then p.userSpInit else loaded.read2 userSpVector) input)
  else none

/-- The "load" action of R231 (informative): enter an operating system's loader, which reads the object program from
`In` as the text given. The run before it has ended or not (log entry 22). -/
def State.osLoad (s : State) (text : List Byte) : State :=
  { s with sp := s.read2 sysSpVector, pc := s.read2 loaderPcVector, input := text, halted := false, fault := none }

/-- The "execute" action of R231 (informative): start the program the loader has stored, which ended its own run by
STOP (R235), in the state of R230, with the operating system's user stack. -/
def State.osExecute (s : State) (regs : InitRegs) (input : List Byte) : State :=
  s.ready regs (s.read2 userSpVector) input

end Sys2Proof.Machine
end

