-- ==== Sys2Proof/Machine/Run.lean ====
section
/-! DEFINITION. A run, with the record of how it ended (spec/70_reset_and_hazards.md R230, R235). -/

namespace Sys2Proof.Machine

/-- The machine's state after one more step, `Fault` included: a fault leaves the state of before the fetch with `Fault`
set (R208); a machine that has no step, halted or waiting, stays as it is. -/
def advance (s : State) : State :=
  match step s with
  | .next t => t
  | .fault f => s.afterFault f
  | .refused _ => s

/-- The state after at most `k` steps: a run that has ended stays in its end state (R19, R235). -/
def runFor : Nat → State → State
  | 0, s => s
  | k + 1, s => runFor k (advance s)

/-- The run has ended: STOP was executed or a fault was raised (R5, R235). -/
def State.ended (s : State) : Bool := s.halted || s.fault.isSome

end Sys2Proof.Machine
end

