-- ==== Sys2Proof/Safety.lean ====
section
/-! DEFINITION. What counts as a good state and a safe run, in the terms claims use. -/

namespace Sys2Proof

open Machine

/-- The invariant of the model's own representation: memory is in canonical form (spec/10_state.md R16: addresses below
65536, each byte said once). Every other field holds only values the spec gives it, by its type. -/
def Inv (s : State) : Prop := s.mem.wf = true

/-- The state `t` is reached from `s` by steps of the machine. -/
def Reaches (s t : State) : Prop := ∃ k, Host.Core.run core k s = .next t

/-- The run from `s` ends by STOP in `t` (spec/70_reset_and_hazards.md R235). -/
def Halts (s t : State) : Prop := Reaches s t ∧ t.halted = true

/-- The run from `s` ends in a fault (spec/60_exceptions.md R208: "gone wrong"). -/
def GoesWrong (s : State) : Prop := ∃ k f, Host.Core.run core k s = .fault f

/-- A safe run raises no fault. -/
def Safe (s : State) : Prop := ¬ GoesWrong s

end Sys2Proof
end

