-- ==== Sys2Proof/Certificates/Slice0/Obligations.lean ====
section
/-! DEFINITION. The statements for the provers, from the numbered rules of spec/. Every statement about `exec` is about
the state the fetch leaves (R54): PC is already past the instruction. -/

open Sys2Proof Sys2Proof.Machine

namespace Sys2Proof.Claims

/-! ### Words the statements use, written from the spec's own tables -/

/-- The field `r` (R10). -/
def regBit : Reg → Byte
  | .a => 0
  | .x => 1

/-- The field `a` (R68). -/
def branchBit : BranchMode → Byte
  | .i => 0
  | .x => 1

/-- The field `aaa` (spec/30_encoding.md section 4). -/
def modeNumber : Mode → Byte
  | .i => 0
  | .d => 1
  | .n => 2
  | .s => 3
  | .sf => 4
  | .x => 5
  | .sx => 6
  | .sxf => 7

/-- The address is in ROM (R35). -/
def InRom (s : State) (a : Word) : Prop := s.params.romStart.val ≤ a.toNat

/-- A store of one byte to `a` raises no fault: ROM ignores stores, or `a` is not in ROM (R35). -/
def CanStore (s : State) (a : Word) : Prop := s.params.romWrite = .ignore ∨ ¬ InRom s a

/-- Memory of `t` is that of `s` after `MemWrite(a, 1, b)` (R33, R35), read byte by byte. -/
def StoresByte (s t : State) (a : Word) (b : Byte) : Prop :=
  (¬ InRom s a → t.read1 a = b) ∧ (InRom s a → t.read1 a = s.read1 a) ∧ ∀ k, k ≠ a → t.read1 k = s.read1 k

/-- Memory of `t` is that of `s` after `MemWrite(a, 2, w)` (R34, R35), read byte by byte. -/
def StoresWord (s t : State) (a w : Word) : Prop :=
  (¬ InRom s a → t.read1 a = w.extractLsb' 8 8) ∧ (InRom s a → t.read1 a = s.read1 a) ∧
    (¬ InRom s (a + 1) → t.read1 (a + 1) = w.extractLsb' 0 8) ∧ (InRom s (a + 1) → t.read1 (a + 1) = s.read1 (a + 1)) ∧
    ∀ k, k ≠ a → k ≠ a + 1 → t.read1 k = s.read1 k

/-- `Target` of a branch or CALL (spec/41_branch_call.md section 1). -/
def target (a : BranchMode) (w : Word) (s : State) : Word :=
  match a with
  | .i => w
  | .x => s.read2 (w + s.x)

/-- The number is a 16-bit signed one. -/
def FitsSigned (k : Int) : Prop := -32768 ≤ k ∧ k ≤ 32767

/-- C after `a - b` (R152's table): no borrow, except that `negate_then_add` gives 0 when `b` is 0. -/
def SubCarry (how : SubFlags) (a b : Word) : Prop :=
  match how with
  | .adder => b.toNat ≤ a.toNat
  | .negateThenAdd => b.toNat ≤ a.toNat ∧ b ≠ 0

/-- V after `a - b` (R152's table): the difference is outside the signed range, except that `negate_then_add` inverts
this when `b` is 0x8000. -/
def SubOverflow (how : SubFlags) (a b : Word) : Prop :=
  match how with
  | .adder => ¬ FitsSigned (a.toInt - b.toInt)
  | .negateThenAdd => if b = 0x8000 then FitsSigned (a.toInt - b.toInt) else ¬ FitsSigned (a.toInt - b.toInt)

/-- `t` has the flags of a 16-bit result `w` with overflow `ov` and carry `ca` (R150, R151). -/
def HasFlags (t : State) (w : Word) (ov ca : Prop) : Prop :=
  (t.n = true ↔ w.toInt < 0) ∧ (t.z = true ↔ w = 0) ∧ (t.v = true ↔ ov) ∧ (t.c = true ↔ ca)

/-- The trap frame (R204), from the byte at offset 0 to the byte at offset 9. -/
def trapFrame (s : State) : List Byte :=
  [0b0000#4 ++ BitVec.ofBool s.n ++ BitVec.ofBool s.z ++ BitVec.ofBool s.v ++ BitVec.ofBool s.c,
    s.a.extractLsb' 8 8, s.a.extractLsb' 0 8, s.x.extractLsb' 8 8, s.x.extractLsb' 0 8, s.pc.extractLsb' 8 8,
    s.pc.extractLsb' 0 8, s.sp.extractLsb' 8 8, s.sp.extractLsb' 0 8, s.ir]

/-- The bytes a trap entry stores to, in the order of R203's pseudocode, a word's more significant byte first (R34). -/
def frameStores (s : State) : List Word :=
  [s.read2 0xFFFA - 1, s.read2 0xFFFA - 3, s.read2 0xFFFA - 2, s.read2 0xFFFA - 5, s.read2 0xFFFA - 4,
    s.read2 0xFFFA - 7, s.read2 0xFFFA - 6, s.read2 0xFFFA - 9, s.read2 0xFFFA - 8, s.read2 0xFFFA - 10]

/-- A word store to `a` and `a + 1` with a byte in ROM: the first such address (log entry 14). -/
def FirstRomByte (s : State) (a named : Word) : Prop :=
  (InRom s a ∧ named = a) ∨ (¬ InRom s a ∧ InRom s (a + 1) ∧ named = a + 1)

/-- The instruction is one of the five the source calls "Interruption": its specifier is 0x24 to 0x47 (R200). -/
def IsTrap (i : Instr) : Prop := 0x24 ≤ (specifierOf i).toNat ∧ (specifierOf i).toNat ≤ 0x47

/-- The bytes a numeral may begin with (R135): spaces and line feeds. -/
def AllBlank (bs : List Byte) : Prop := ∀ b ∈ bs, b = 0x20#8 ∨ b = 0x0A#8

/-- ASCII digits, 0x30 to 0x39 (R90). -/
def AllDigits (bs : List Byte) : Prop := ∀ b ∈ bs, 0x30 ≤ b.toNat ∧ b.toNat ≤ 0x39

/-- A byte that is no digit. -/
def NotDigit (c : Byte) : Prop := c.toNat < 0x30 ∨ 0x39 < c.toNat

/-- The number that decimal digits say, most significant first. -/
def digitsValue (bs : List Byte) : Nat := bs.foldl (fun acc b => acc * 10 + (b.toNat - 0x30)) 0

/-- An optional sign (R135): none, '+' or '-'. -/
inductive Sign where
  | none
  | plus
  | minus
  deriving DecidableEq, Repr

/-- The bytes of a sign. -/
def signBytes : Sign → List Byte
  | .none => []
  | .plus => [0x2B]
  | .minus => [0x2D]

/-- A magnitude with its sign. -/
def signed (sign : Sign) (k : Nat) : Int :=
  match sign with
  | .none => k
  | .plus => k
  | .minus => -k

/-- The instruction again and again, each time from the state the time before left. -/
def execTimes : Nat → Instr → State → Result
  | 0, _, s => .next s
  | k + 1, i, s =>
    match exec i s with
    | .next t => execTimes k i t
    | .fault f => .fault f
    | .refused r => .refused r

/-- The 18 specifiers of R70. -/
def illegalSpecifiers : List Byte :=
  [0x29, 0x2A, 0x2B, 0x2C, 0x2D, 0x2E, 0x2F, 0x30, 0x40, 0x43, 0x45, 0x46, 0x47, 0x48, 0xE0, 0xE8, 0xF0, 0xF8]

/-- The row of the opcode table (R55), counted from 0. -/
def rowOf : Instr → Nat
  | .stop => 0
  | .rettr => 1
  | .movspa => 2
  | .movflga => 3
  | .br _ _ => 4
  | .brle _ _ => 5
  | .brlt _ _ => 6
  | .breq _ _ => 7
  | .brne _ _ => 8
  | .brge _ _ => 9
  | .brgt _ _ => 10
  | .brv _ _ => 11
  | .brc _ _ => 12
  | .call _ _ => 13
  | .notr _ => 14
  | .negr _ => 15
  | .aslr _ => 16
  | .asrr _ => 17
  | .rolr _ => 18
  | .rorr _ => 19
  | .nopn _ => 20
  | .nop _ _ => 21
  | .deci _ _ => 22
  | .deco _ _ => 23
  | .stro _ _ => 24
  | .chari _ _ => 25
  | .charo _ _ => 26
  | .retn _ => 27
  | .addsp _ _ => 28
  | .subsp _ _ => 29
  | .addr _ _ _ => 30
  | .subr _ _ _ => 31
  | .andr _ _ _ => 32
  | .orr _ _ _ => 33
  | .cpr _ _ _ => 34
  | .ldr _ _ _ => 35
  | .ldbyter _ _ _ => 36
  | .str _ _ _ => 37
  | .stbyter _ _ _ => 38

/-- The last specifier of each row, in the table's order (the column "hex" of R55). -/
def lastSpecifiers : List Nat :=
  [0x00, 0x01, 0x02, 0x03, 0x05, 0x07, 0x09, 0x0B, 0x0D, 0x0F, 0x11, 0x13, 0x15, 0x17, 0x19, 0x1B, 0x1D, 0x1F, 0x21,
    0x23, 0x27, 0x2F, 0x37, 0x3F, 0x47, 0x4F, 0x57, 0x5F, 0x67, 0x6F, 0x7F, 0x8F, 0x9F, 0xAF, 0xBF, 0xCF, 0xDF, 0xEF,
    0xFF]

/-- The flags a row writes (R13; RETTR restores all four, R101): N, Z, V, C. -/
def flagsWritten : Instr → Bool × Bool × Bool × Bool
  | .rettr => (true, true, true, true)
  | .aslr _ | .addsp _ _ | .subsp _ _ | .addr _ _ _ | .subr _ _ _ | .cpr _ _ _ => (true, true, true, true)
  | .negr _ | .deci _ _ => (true, true, true, false)
  | .asrr _ => (true, true, false, true)
  | .notr _ | .andr _ _ _ | .orr _ _ _ | .ldr _ _ _ | .ldbyter _ _ _ => (true, true, false, false)
  | .rolr _ | .rorr _ => (false, false, false, true)
  | .stop | .movspa | .movflga => (false, false, false, false)
  | .br _ _ | .brle _ _ | .brlt _ _ | .breq _ _ | .brne _ _ | .brge _ _ | .brgt _ _ | .brv _ _ | .brc _ _ =>
    (false, false, false, false)
  | .call _ _ | .nopn _ | .nop _ _ | .deco _ _ | .stro _ _ | .chari _ _ | .charo _ _ | .retn _ =>
    (false, false, false, false)
  | .str _ _ _ | .stbyter _ _ _ => (false, false, false, false)

/-- The instructions that write SP whatever `TRAP_MODEL` is (R11). -/
def writesSp : Instr → Bool
  | .rettr | .call _ _ | .retn _ | .addsp _ _ | .subsp _ _ => true
  | .stop | .movspa | .movflga => false
  | .br _ _ | .brle _ _ | .brlt _ _ | .breq _ _ | .brne _ _ | .brge _ _ | .brgt _ _ | .brv _ _ | .brc _ _ => false
  | .notr _ | .negr _ | .aslr _ | .asrr _ | .rolr _ | .rorr _ => false
  | .nopn _ | .nop _ _ | .deci _ _ | .deco _ _ | .stro _ _ | .chari _ _ | .charo _ _ => false
  | .addr _ _ _ | .subr _ _ _ | .andr _ _ _ | .orr _ _ _ | .cpr _ _ _ => false
  | .ldr _ _ _ | .ldbyter _ _ _ | .str _ _ _ | .stbyter _ _ _ => false

/-- The instructions that write memory whatever `TRAP_MODEL` is (R37). -/
def writesMemory : Instr → Bool
  | .call _ _ | .chari _ _ | .str _ _ _ | .stbyter _ _ _ => true
  | .deci _ _ => true
  | .rettr | .retn _ | .addsp _ _ | .subsp _ _ | .stop | .movspa | .movflga => false
  | .br _ _ | .brle _ _ | .brlt _ _ | .breq _ _ | .brne _ _ | .brge _ _ | .brgt _ _ | .brv _ _ | .brc _ _ => false
  | .notr _ | .negr _ | .aslr _ | .asrr _ | .rolr _ | .rorr _ => false
  | .nopn _ | .nop _ _ | .deco _ _ | .stro _ _ | .charo _ _ => false
  | .addr _ _ _ | .subr _ _ _ | .andr _ _ _ | .orr _ _ _ | .cpr _ _ _ => false
  | .ldr _ _ _ | .ldbyter _ _ _ => false

end Sys2Proof.Claims

open Sys2Proof.Claims

/-! ### The machine's step -/

/-- R54: the fetch writes IR, and Spec for a non-unary instruction, and moves PC past the instruction; then the decoded
instruction executes. -/
def Obligations.StepRunsDecodedInstruction : Prop :=
  ∀ (s : State) (i : Instr) (rest : List Byte),
    s.halted = false → s.fault = none → decode s.fetchBytes = .ok (i, rest) →
    step s = exec i
      (if operandSpecifierOf i = none then { s with ir := s.read1 s.pc, pc := s.pc + 1 }
        else { s with ir := s.read1 s.pc, spec := s.read2 (s.pc + 1), pc := s.pc + 3 })

/-- R19, R54, R208: an ended machine takes no further step, and a fault leaves the state of before the fetch with
`Fault` set. How a step says that there is none is the model's choice (log entry 6). -/
def Obligations.EndedRunStaysAsItIs : Prop :=
  (∀ (s t : State), s.halted = true ∨ s.fault ≠ none → step s ≠ .next t) ∧
    (∀ (s : State) (f : Fault) (k : Nat), s.fault = none → step s = .fault f →
      runFor (k + 1) s = { s with fault := some f }) ∧
    ∀ (s : State) (k : Nat), s.halted = true → s.fault = none → runFor k s = s

/-! ### STOP, RETTR, MOVSPA, MOVFLGA -/

/-- R100. -/
def Obligations.StopEndsTheRun : Prop :=
  encode .stop = [0x00] ∧
    ∀ s : State, ∃ t, exec .stop s = .next t ∧ t = { s with halted := true } ∧ ∀ u, step t ≠ .next u

/-- R101. -/
def Obligations.RettrRestoresTheFrame : Prop :=
  encode .rettr = [0x01] ∧
    ∀ s : State, exec .rettr s = .next
      { s with
        n := (s.read1 s.sp).getLsbD 3
        z := (s.read1 s.sp).getLsbD 2
        v := (s.read1 s.sp).getLsbD 1
        c := (s.read1 s.sp).getLsbD 0
        a := s.read2 (s.sp + 1)
        x := s.read2 (s.sp + 3)
        pc := s.read2 (s.sp + 5)
        sp := s.read2 (s.sp + 7) }

/-- R102; and R103: A[3:0] = NZVC, A[7:4] = 0, A[15:8] as `MOVFLGA_UPPER` says. Nothing else changes. -/
def Obligations.MovspaAndMovflgaWriteA : Prop :=
  encode .movspa = [0x02] ∧ encode .movflga = [0x03] ∧
    ∀ s : State, exec .movspa s = .next { s with a := s.sp } ∧
      ∃ w : Word, exec .movflga s = .next { s with a := w } ∧
        w.getLsbD 3 = s.n ∧ w.getLsbD 2 = s.z ∧ w.getLsbD 1 = s.v ∧ w.getLsbD 0 = s.c ∧
        w.extractLsb' 4 4 = 0 ∧
        w.extractLsb' 8 8 = (match s.params.movflgaUpper with | .zero => 0 | .preserve => s.a.extractLsb' 8 8)

/-! ### Branches, CALL and RETn -/

/-- R110 to R118 (the table of R109): the bytes of each branch, and which flags it tests; a taken one writes PC and
nothing else, an untaken one nothing. -/
def Obligations.BranchesTestTheirFlags : Prop :=
  (∀ (a : BranchMode) (w : Word),
    encode (.br a w) = [0x04 + branchBit a, w.extractLsb' 8 8, w.extractLsb' 0 8] ∧
    encode (.brle a w) = [0x06 + branchBit a, w.extractLsb' 8 8, w.extractLsb' 0 8] ∧
    encode (.brlt a w) = [0x08 + branchBit a, w.extractLsb' 8 8, w.extractLsb' 0 8] ∧
    encode (.breq a w) = [0x0A + branchBit a, w.extractLsb' 8 8, w.extractLsb' 0 8] ∧
    encode (.brne a w) = [0x0C + branchBit a, w.extractLsb' 8 8, w.extractLsb' 0 8] ∧
    encode (.brge a w) = [0x0E + branchBit a, w.extractLsb' 8 8, w.extractLsb' 0 8] ∧
    encode (.brgt a w) = [0x10 + branchBit a, w.extractLsb' 8 8, w.extractLsb' 0 8] ∧
    encode (.brv a w) = [0x12 + branchBit a, w.extractLsb' 8 8, w.extractLsb' 0 8] ∧
    encode (.brc a w) = [0x14 + branchBit a, w.extractLsb' 8 8, w.extractLsb' 0 8]) ∧
  ∀ (a : BranchMode) (w : Word) (s : State),
    exec (.br a w) s = .next { s with pc := target a w s } ∧
    exec (.brle a w) s = .next (if s.n = true ∨ s.z = true then { s with pc := target a w s } else s) ∧
    exec (.brlt a w) s = .next (if s.n = true then { s with pc := target a w s } else s) ∧
    exec (.breq a w) s = .next (if s.z = true then { s with pc := target a w s } else s) ∧
    exec (.brne a w) s = .next (if s.z = false then { s with pc := target a w s } else s) ∧
    exec (.brge a w) s = .next (if s.n = false then { s with pc := target a w s } else s) ∧
    exec (.brgt a w) s = .next (if s.n = false ∧ s.z = false then { s with pc := target a w s } else s) ∧
    exec (.brv a w) s = .next (if s.v = true then { s with pc := target a w s } else s) ∧
    exec (.brc a w) s = .next (if s.c = true then { s with pc := target a w s } else s)

/-- R119: the target is read with the old state, then the return address is stored at SP - 2. -/
def Obligations.CallPushesTheReturnAddress : Prop :=
  (∀ (a : BranchMode) (w : Word), encode (.call a w) = [0x16 + branchBit a, w.extractLsb' 8 8, w.extractLsb' 0 8]) ∧
    ∀ (a : BranchMode) (w : Word) (s : State), CanStore s (s.sp - 2) → CanStore s (s.sp - 2 + 1) →
      ∃ t, exec (.call a w) s = .next t ∧ t = { s with sp := s.sp - 2, pc := target a w s, mem := t.mem } ∧
        StoresWord s t (s.sp - 2) s.pc

/-- R145. -/
def Obligations.RetnPopsTheReturnAddress : Prop :=
  (∀ n : BitVec 3, encode (.retn n) = [BitVec.ofNat 8 (0x58 + n.toNat)]) ∧
    ∀ (n : BitVec 3) (s : State), exec (.retn n) s = .next
      { s with
        pc := s.read2 (s.sp + BitVec.ofNat 16 n.toNat)
        sp := s.sp + BitVec.ofNat 16 (n.toNat + 2) }

/-- R119 and R145 together: a RETn that frees the `n` bytes of locals allocated since the CALL, with the return address
still in place, goes back behind the CALL with the SP of before it. -/
def Obligations.RetnReturnsBehindTheCall : Prop :=
  ∀ (a : BranchMode) (w : Word) (n : BitVec 3) (s t u : State),
    ¬ InRom s (s.sp - 2) → ¬ InRom s (s.sp - 2 + 1) → exec (.call a w) s = .next t →
    u.sp = t.sp - BitVec.ofNat 16 n.toNat → u.read2 t.sp = t.read2 t.sp →
    exec (.retn n) u = .next { u with pc := s.pc, sp := s.sp }

/-! ### The unary register instructions -/

/-- R120. -/
def Obligations.NotComplementsTheRegister : Prop :=
  (∀ r : Reg, encode (.notr r) = [0x18 + regBit r]) ∧
    ∀ (r : Reg) (s : State), ∃ t w, exec (.notr r) s = .next t ∧ w = 0xFFFF - s.reg r ∧
      t = { s.setReg r w with n := t.n, z := t.z } ∧ (t.n = true ↔ w.toInt < 0) ∧ (t.z = true ↔ w = 0)

/-- R121. -/
def Obligations.NegNegatesTheRegister : Prop :=
  (∀ r : Reg, encode (.negr r) = [0x1A + regBit r]) ∧
    ∀ (r : Reg) (s : State), ∃ t w, exec (.negr r) s = .next t ∧ w = -(s.reg r) ∧
      t = { s.setReg r w with n := t.n, z := t.z, v := t.v } ∧ HasFlags t w (s.reg r = 0x8000) (s.c = true)

/-- R122: the value doubles; C is the bit shifted out; V says that twice the signed value does not fit. -/
def Obligations.AslDoublesTheRegister : Prop :=
  (∀ r : Reg, encode (.aslr r) = [0x1C + regBit r]) ∧
    ∀ (r : Reg) (s : State), ∃ t w, exec (.aslr r) s = .next t ∧ w = BitVec.ofNat 16 (2 * (s.reg r).toNat) ∧
      t = { s.setReg r w with n := t.n, z := t.z, v := t.v, c := t.c } ∧
      HasFlags t w (¬ FitsSigned (2 * (s.reg r).toInt)) (32768 ≤ (s.reg r).toNat)

/-- R123: the signed value is halved, rounding down; C is the bit shifted out; V keeps its value. -/
def Obligations.AsrHalvesTheRegister : Prop :=
  (∀ r : Reg, encode (.asrr r) = [0x1E + regBit r]) ∧
    ∀ (r : Reg) (s : State), ∃ t w, exec (.asrr r) s = .next t ∧ w.toInt = (s.reg r).toInt.fdiv 2 ∧
      t = { s.setReg r w with n := t.n, z := t.z, c := t.c } ∧
      HasFlags t w (s.v = true) ((s.reg r).toNat % 2 = 1)

/-- R124: the 17 bits (C, x[r]) rotate to the left by one. -/
def Obligations.RolRotatesThroughCarry : Prop :=
  (∀ r : Reg, encode (.rolr r) = [0x20 + regBit r]) ∧
    ∀ (r : Reg) (s : State), ∃ t w, exec (.rolr r) s = .next t ∧ t = { s.setReg r w with c := t.c } ∧
      (BitVec.ofBool t.c ++ w : BitVec 17) = (BitVec.ofBool s.c ++ s.reg r : BitVec 17).rotateLeft 1

/-- R125: the 17 bits (x[r], C) rotate to the right by one. -/
def Obligations.RorRotatesThroughCarry : Prop :=
  (∀ r : Reg, encode (.rorr r) = [0x22 + regBit r]) ∧
    ∀ (r : Reg) (s : State), ∃ t w, exec (.rorr r) s = .next t ∧ t = { s.setReg r w with c := t.c } ∧
      (w ++ BitVec.ofBool t.c : BitVec 17) = (s.reg r ++ BitVec.ofBool s.c : BitVec 17).rotateRight 1

/-- R124, R125, their corner cases: seventeen rotates restore the state, and each rotate undoes the other. -/
def Obligations.RotatesAreUndone : Prop :=
  ∀ (r : Reg) (s : State),
    execTimes 17 (.rolr r) s = .next s ∧ execTimes 17 (.rorr r) s = .next s ∧
    (∀ t, exec (.rolr r) s = .next t → exec (.rorr r) t = .next s) ∧
    ∀ t, exec (.rorr r) s = .next t → exec (.rolr r) t = .next s

/-! ### The trap instructions -/

/-- R130 and R132 in the service model (R129): nothing happens, and NOP has no mode but i. -/
def Obligations.TrapNopsDoNothing : Prop :=
  (∀ nn : BitVec 2, encode (.nopn nn) = [BitVec.ofNat 8 (0x24 + nn.toNat)]) ∧
    (∀ w : Word, encode (.nop .i w) = [0x28, w.extractLsb' 8 8, w.extractLsb' 0 8]) ∧
    ∀ (s : State), s.params.trapModel = .service →
      (∀ nn, exec (.nopn nn) s = .next s) ∧ (∀ w, exec (.nop .i w) s = .next s) ∧
      ∀ m w, m ≠ .i → exec (.nop m w) s = .fault (.illegalAddressingMode s.ir)

/-- R134 in the service model. -/
def Obligations.DeciStoresTheNumeral : Prop :=
  (∀ (m : Mode) (w : Word), encode (.deci m w) = [0x30 + modeNumber m, w.extractLsb' 8 8, w.extractLsb' 0 8]) ∧
    (∀ (m : Mode) (w ea : Word) (s : State) (value : Int) (rest : List Byte),
      s.params.trapModel = .service → effectiveAddress m w s = some ea → readDecimal s.input = .numeral value rest →
      CanStore s ea → CanStore s (ea + 1) →
      ∃ t, exec (.deci m w) s = .next t ∧
        t = { s with input := rest, mem := t.mem, n := t.n, z := t.z, v := t.v } ∧
        StoresWord s t ea (BitVec.ofInt 16 value) ∧
        HasFlags t (BitVec.ofInt 16 value) (¬ FitsSigned value) (s.c = true)) ∧
    (∀ (w : Word) (s : State), s.params.trapModel = .service →
      exec (.deci .i w) s = .fault (.illegalAddressingMode s.ir)) ∧
    (∀ (m : Mode) (w : Word) (s : State) (c : Byte), s.params.trapModel = .service → m ≠ .i →
      readDecimal s.input = .invalid c → exec (.deci m w) s = .fault (.invalidDeciInput c)) ∧
    ∀ (m : Mode) (w : Word) (s : State), s.params.trapModel = .service → m ≠ .i → readDecimal s.input = .exhausted →
      (s.params.inputEof = .fault → exec (.deci m w) s = .fault .inputExhausted) ∧
      ∀ t, exec (.deci m w) s ≠ .next t

/-- R135, what is accepted: blanks, an optional sign, at least one digit, and a byte that is no digit, which is
consumed. -/
def Obligations.NumeralIsRead : Prop :=
  ∀ (blanks : List Byte) (sign : Sign) (digits : List Byte) (c : Byte) (rest : List Byte),
    AllBlank blanks → digits ≠ [] → AllDigits digits → NotDigit c →
    readDecimal (blanks ++ signBytes sign ++ digits ++ c :: rest) = .numeral (signed sign (digitsValue digits)) rest

/-- R135, what is not: a byte that is no digit after blanks alone (and no blank and no sign either) or after a sign is
invalid; an input that ends before the byte after the digits runs out. -/
def Obligations.NumeralIsNotRead : Prop :=
  (∀ (blanks : List Byte) (c : Byte) (rest : List Byte), AllBlank blanks → NotDigit c →
    c ≠ 0x20 → c ≠ 0x0A → c ≠ 0x2B → c ≠ 0x2D → readDecimal (blanks ++ c :: rest) = .invalid c) ∧
  (∀ (blanks : List Byte) (sign : Sign) (c : Byte) (rest : List Byte), AllBlank blanks → sign ≠ .none → NotDigit c →
    readDecimal (blanks ++ signBytes sign ++ c :: rest) = .invalid c) ∧
  ∀ (blanks : List Byte) (sign : Sign) (digits : List Byte), AllBlank blanks → AllDigits digits →
    readDecimal (blanks ++ signBytes sign ++ digits) = .exhausted

/-- R136 in the service model. -/
def Obligations.DecoOutputsTheNumeral : Prop :=
  (∀ (m : Mode) (w : Word), encode (.deco m w) = [0x38 + modeNumber m, w.extractLsb' 8 8, w.extractLsb' 0 8]) ∧
    ∀ (m : Mode) (w : Word) (s : State), s.params.trapModel = .service →
      exec (.deco m w) s = .next { s with output := s.output ++ decimalText (operand16 m w s).toInt }

/-- R137: a minus sign exactly for a negative number, then the digits of its magnitude, none of them a leading zero but
in "0". -/
def Obligations.DecimalTextIsShortest : Prop :=
  ∀ k : Int, FitsSigned k → ∃ digits : List Byte,
    decimalText k = (if k < 0 then [0x2D] else []) ++ digits ∧ AllDigits digits ∧ digits ≠ [] ∧
    digitsValue digits = k.natAbs ∧ (digits.head? = some 0x30 → digits = [0x30])

/-- R135 and R137 together: DECI reads back what DECO writes, for every word. -/
def Obligations.DeciReadsWhatDecoWrites : Prop :=
  ∀ (w : Word) (c : Byte) (rest : List Byte), NotDigit c →
    readDecimal (decimalText w.toInt ++ c :: rest) = .numeral w.toInt rest

/-- R138 in the service model: the bytes before the first 0x00 are output; with no 0x00 in all of memory there is a
fault; the modes but d, n, sf are illegal. -/
def Obligations.StroOutputsTheString : Prop :=
  (∀ (m : Mode) (w : Word), encode (.stro m w) = [0x40 + modeNumber m, w.extractLsb' 8 8, w.extractLsb' 0 8]) ∧
    (∀ (m : Mode) (w ea : Word) (s : State) (len : Nat),
      s.params.trapModel = .service → m = .d ∨ m = .n ∨ m = .sf → effectiveAddress m w s = some ea →
      len < 65536 → (∀ k, k < len → s.read1 (ea + BitVec.ofNat 16 k) ≠ 0) → s.read1 (ea + BitVec.ofNat 16 len) = 0 →
      exec (.stro m w) s = .next
        { s with output := s.output ++ (List.range len).map (fun k => s.read1 (ea + BitVec.ofNat 16 k)) }) ∧
    (∀ (m : Mode) (w : Word) (s : State), s.params.trapModel = .service → m = .d ∨ m = .n ∨ m = .sf →
      (∀ a, s.read1 a ≠ 0) → exec (.stro m w) s = .fault .unterminatedString) ∧
    ∀ (m : Mode) (w : Word) (s : State), s.params.trapModel = .service → ¬ (m = .d ∨ m = .n ∨ m = .sf) →
      exec (.stro m w) s = .fault (.illegalAddressingMode s.ir)

/-- R203 with `TRAP_MODEL = hardware`, for every trap instruction in every mode: the frame of R204 below the word at
0xFFFA, SP at the frame, PC from the word at 0xFFFE; nothing else changes. That this word is read after the frame is
written, as memory then has it, is the model's reading where the frame overlaps it (log entry 9). -/
def Obligations.TrapEntryBuildsTheFrame : Prop :=
  ∀ (i : Instr) (s : State), IsTrap i → s.params.trapModel = .hardware →
    (∀ k, k < 10 → CanStore s (s.read2 0xFFFA - 10 + BitVec.ofNat 16 k)) →
    ∃ t, exec i s = .next t ∧ t = { s with sp := s.read2 0xFFFA - 10, pc := t.read2 0xFFFE, mem := t.mem } ∧
      (∀ k b a, (trapFrame s)[k]? = some b → a = s.read2 0xFFFA - 10 + BitVec.ofNat 16 k →
        (¬ InRom s a → t.read1 a = b) ∧ (InRom s a → t.read1 a = s.read1 a)) ∧
      ∀ a, (∀ k, k < 10 → a ≠ s.read2 0xFFFA - 10 + BitVec.ofNat 16 k) → t.read1 a = s.read1 a

/-- R203, R204 and R101 together (R205): RETTR executed with SP as trap entry left it gives the trapped program back its
A, X, flags, SP and PC. -/
def Obligations.TrapReturnUndoesTrapEntry : Prop :=
  ∀ (i : Instr) (s t : State), IsTrap i → s.params.trapModel = .hardware →
    (∀ k, k < 10 → ¬ InRom s (s.read2 0xFFFA - 10 + BitVec.ofNat 16 k)) → exec i s = .next t →
    exec .rettr t = .next { s with mem := t.mem }

/-! ### Characters -/

/-- R140, with R17 for the empty stream. -/
def Obligations.ChariStoresTheInputByte : Prop :=
  (∀ (m : Mode) (w : Word), encode (.chari m w) = [0x48 + modeNumber m, w.extractLsb' 8 8, w.extractLsb' 0 8]) ∧
    (∀ (m : Mode) (w ea : Word) (s : State) (c : Byte) (rest : List Byte),
      effectiveAddress m w s = some ea → s.input = c :: rest → CanStore s ea →
      ∃ t, exec (.chari m w) s = .next t ∧ t = { s with input := rest, mem := t.mem } ∧ StoresByte s t ea c) ∧
    (∀ (w : Word) (s : State), exec (.chari .i w) s = .fault (.illegalAddressingMode s.ir)) ∧
    ∀ (m : Mode) (w : Word) (s : State), m ≠ .i → s.input = [] →
      (s.params.inputEof = .fault → exec (.chari m w) s = .fault .inputExhausted) ∧
      ∀ t, exec (.chari m w) s ≠ .next t

/-- R141. -/
def Obligations.CharoOutputsTheByte : Prop :=
  (∀ (m : Mode) (w : Word), encode (.charo m w) = [0x50 + modeNumber m, w.extractLsb' 8 8, w.extractLsb' 0 8]) ∧
    (∀ (w : Word) (s : State), exec (.charo .i w) s = .next { s with output := s.output ++ [w.extractLsb' 0 8] }) ∧
    ∀ (m : Mode) (w ea : Word) (s : State), effectiveAddress m w s = some ea →
      exec (.charo m w) s = .next { s with output := s.output ++ [s.read1 ea] }

/-! ### Operands and memory -/

/-- R60 to R67 and R69: the effective address and the operands of the eight modes. -/
def Obligations.OperandsByAddressingMode : Prop :=
  ∀ (w : Word) (s : State),
    effectiveAddress .i w s = none ∧ operand16 .i w s = w ∧ operand8 .i w s = w.extractLsb' 0 8 ∧
    effectiveAddress .d w s = some w ∧
    effectiveAddress .n w s = some (s.read2 w) ∧
    effectiveAddress .s w s = some (s.sp + w) ∧
    effectiveAddress .sf w s = some (s.read2 (s.sp + w)) ∧
    effectiveAddress .x w s = some (w + s.x) ∧
    effectiveAddress .sx w s = some (s.sp + w + s.x) ∧
    effectiveAddress .sxf w s = some (s.read2 (s.sp + w) + s.x) ∧
    ∀ m ea, effectiveAddress m w s = some ea → operand16 m w s = s.read2 ea ∧ operand8 m w s = s.read1 ea

/-- R31 to R35: what a word store leaves to be read, byte by byte, and that a word is read big-endian, addresses modulo
65536. -/
def Obligations.WordStoreIsBigEndian : Prop :=
  (∀ (s : State) (a : Word), s.read2 a = s.read1 a ++ s.read1 (a + 1)) ∧
    ∀ (s : State) (a w : Word), CanStore s a → CanStore s (a + 1) →
      ∃ t, s.write2 a w = .ok t ∧ t = { s with mem := t.mem } ∧ StoresWord s t a w ∧
        (¬ InRom s a → ¬ InRom s (a + 1) → t.read2 a = w)

/-- R35 with `ROM_WRITE = fault`: every storing instruction and trap entry raise RomWrite if a byte they store to is in
ROM. That a store of several bytes names the first of them that is in ROM, in the order in which R34 and R203 write
them, is the model's deduction (log entry 14). -/
def Obligations.StoreToRomFaults : Prop :=
  ∀ s : State, s.params.romWrite = .fault →
    (∀ r m w ea named, effectiveAddress m w s = some ea → FirstRomByte s ea named →
      exec (.str r m w) s = .fault (.romWrite named)) ∧
    (∀ r m w ea, effectiveAddress m w s = some ea → InRom s ea → exec (.stbyter r m w) s = .fault (.romWrite ea)) ∧
    (∀ a w named, FirstRomByte s (s.sp - 2) named → exec (.call a w) s = .fault (.romWrite named)) ∧
    (∀ m w ea c rest, effectiveAddress m w s = some ea → s.input = c :: rest → InRom s ea →
      exec (.chari m w) s = .fault (.romWrite ea)) ∧
    (∀ m w ea named value rest, s.params.trapModel = .service → effectiveAddress m w s = some ea →
      readDecimal s.input = .numeral value rest → FirstRomByte s ea named →
      exec (.deci m w) s = .fault (.romWrite named)) ∧
    ∀ i before named after, IsTrap i → s.params.trapModel = .hardware → frameStores s = before ++ named :: after →
      (∀ a ∈ before, ¬ InRom s a) → InRom s named → exec i s = .fault (.romWrite named)

/-! ### SP, arithmetic and logic -/

/-- R146: the flags are those of the mathematical sum. -/
def Obligations.AddspAddsToSp : Prop :=
  (∀ (m : Mode) (w : Word), encode (.addsp m w) = [0x60 + modeNumber m, w.extractLsb' 8 8, w.extractLsb' 0 8]) ∧
    ∀ (m : Mode) (w opr : Word) (s : State), opr = operand16 m w s →
      ∃ t, exec (.addsp m w) s = .next t ∧
        t = { s with sp := s.sp + opr, n := t.n, z := t.z, v := t.v, c := t.c } ∧
        HasFlags t (s.sp + opr) (¬ FitsSigned (s.sp.toInt + opr.toInt)) (65536 ≤ s.sp.toNat + opr.toNat)

/-- R147: the flags are those of R152's table. -/
def Obligations.SubspSubtractsFromSp : Prop :=
  (∀ (m : Mode) (w : Word), encode (.subsp m w) = [0x68 + modeNumber m, w.extractLsb' 8 8, w.extractLsb' 0 8]) ∧
    ∀ (m : Mode) (w opr : Word) (s : State), opr = operand16 m w s →
      ∃ t, exec (.subsp m w) s = .next t ∧
        t = { s with sp := s.sp - opr, n := t.n, z := t.z, v := t.v, c := t.c } ∧
        HasFlags t (s.sp - opr) (SubOverflow s.params.subFlags s.sp opr) (SubCarry s.params.subFlags s.sp opr)

/-- R153: the flags are those of the mathematical sum. -/
def Obligations.AddrAddsToTheRegister : Prop :=
  (∀ (r : Reg) (m : Mode) (w : Word),
    encode (.addr r m w) = [0x70 + 8 * regBit r + modeNumber m, w.extractLsb' 8 8, w.extractLsb' 0 8]) ∧
    ∀ (r : Reg) (m : Mode) (w old opr : Word) (s : State), old = s.reg r → opr = operand16 m w s →
      ∃ t, exec (.addr r m w) s = .next t ∧
        t = { s.setReg r (old + opr) with n := t.n, z := t.z, v := t.v, c := t.c } ∧
        HasFlags t (old + opr) (¬ FitsSigned (old.toInt + opr.toInt)) (65536 ≤ old.toNat + opr.toNat)

/-- R154: the flags are those of R152's table. -/
def Obligations.SubrSubtractsFromTheRegister : Prop :=
  (∀ (r : Reg) (m : Mode) (w : Word),
    encode (.subr r m w) = [0x80 + 8 * regBit r + modeNumber m, w.extractLsb' 8 8, w.extractLsb' 0 8]) ∧
    ∀ (r : Reg) (m : Mode) (w old opr : Word) (s : State), old = s.reg r → opr = operand16 m w s →
      ∃ t, exec (.subr r m w) s = .next t ∧
        t = { s.setReg r (old - opr) with n := t.n, z := t.z, v := t.v, c := t.c } ∧
        HasFlags t (old - opr) (SubOverflow s.params.subFlags old opr) (SubCarry s.params.subFlags old opr)

/-- R157: SUBr's flags, no register; N is the sign of the 16-bit difference. -/
def Obligations.CprComparesTheRegister : Prop :=
  (∀ (r : Reg) (m : Mode) (w : Word),
    encode (.cpr r m w) = [0xB0 + 8 * regBit r + modeNumber m, w.extractLsb' 8 8, w.extractLsb' 0 8]) ∧
    ∀ (r : Reg) (m : Mode) (w opr : Word) (s : State), opr = operand16 m w s →
      ∃ t, exec (.cpr r m w) s = .next t ∧
        t = { s with n := t.n, z := t.z, v := t.v, c := t.c } ∧ (t.z = true ↔ s.reg r = opr) ∧
        HasFlags t (s.reg r - opr) (SubOverflow s.params.subFlags (s.reg r) opr)
          (SubCarry s.params.subFlags (s.reg r) opr)

/-- R155 and R156. -/
def Obligations.AndrOrrCombineBits : Prop :=
  (∀ (r : Reg) (m : Mode) (w : Word),
    encode (.andr r m w) = [0x90 + 8 * regBit r + modeNumber m, w.extractLsb' 8 8, w.extractLsb' 0 8] ∧
    encode (.orr r m w) = [0xA0 + 8 * regBit r + modeNumber m, w.extractLsb' 8 8, w.extractLsb' 0 8]) ∧
    ∀ (r : Reg) (m : Mode) (w opr : Word) (s : State), opr = operand16 m w s →
      (∃ t, exec (.andr r m w) s = .next t ∧ t = { s.setReg r (s.reg r &&& opr) with n := t.n, z := t.z } ∧
        HasFlags t (s.reg r &&& opr) (s.v = true) (s.c = true)) ∧
      ∃ t, exec (.orr r m w) s = .next t ∧ t = { s.setReg r (s.reg r ||| opr) with n := t.n, z := t.z } ∧
        HasFlags t (s.reg r ||| opr) (s.v = true) (s.c = true)

/-- R151 with R150: the sum modulo 65536, and all four flags from it: C the carry out of bit 15, V two's-complement
overflow, carry in included. -/
def Obligations.Add16IsExact : Prop :=
  ∀ (a b : Word) (cin : Bool) (s : State),
    (add16 a b cin).value = a + b + (if cin then 1 else 0) ∧
    HasFlags (s.setNZVC (add16 a b cin)) (a + b + (if cin then 1 else 0))
      (¬ FitsSigned (a.toInt + b.toInt + (if cin then 1 else 0))) (65536 ≤ a.toNat + b.toNat + (if cin then 1 else 0))

/-- R152 with R150: the difference modulo 65536, N and Z from it, and the table of C and V for both values of
`SUB_FLAGS`. -/
def Obligations.Sub16FollowsTheTable : Prop :=
  ∀ (a b : Word) (s : State),
    (∀ how, (sub16 how a b).value = a - b ∧
      ((s.setNZVC (sub16 how a b)).n = true ↔ (a - b).toInt < 0) ∧
      ((s.setNZVC (sub16 how a b)).z = true ↔ a - b = 0)) ∧
    (∀ how, b ≠ 0 → b ≠ 0x8000 →
      ((s.setNZVC (sub16 how a b)).c = true ↔ b.toNat ≤ a.toNat) ∧
      ((s.setNZVC (sub16 how a b)).v = true ↔ ¬ FitsSigned (a.toInt - b.toInt))) ∧
    (s.setNZVC (sub16 .adder a 0)).c = true ∧ (s.setNZVC (sub16 .adder a 0)).v = false ∧
    (s.setNZVC (sub16 .negateThenAdd a 0)).c = false ∧ (s.setNZVC (sub16 .negateThenAdd a 0)).v = false ∧
    (s.setNZVC (sub16 .adder a 0x8000)).c = a.getLsbD 15 ∧ (s.setNZVC (sub16 .adder a 0x8000)).v = !a.getLsbD 15 ∧
    (s.setNZVC (sub16 .negateThenAdd a 0x8000)).c = a.getLsbD 15 ∧
    (s.setNZVC (sub16 .negateThenAdd a 0x8000)).v = a.getLsbD 15

/-! ### Loads and stores -/

/-- R160. -/
def Obligations.LdrLoadsTheWord : Prop :=
  (∀ (r : Reg) (m : Mode) (w : Word),
    encode (.ldr r m w) = [0xC0 + 8 * regBit r + modeNumber m, w.extractLsb' 8 8, w.extractLsb' 0 8]) ∧
    ∀ (r : Reg) (m : Mode) (w opr : Word) (s : State), opr = operand16 m w s →
      ∃ t, exec (.ldr r m w) s = .next t ∧ t = { s.setReg r opr with n := t.n, z := t.z } ∧
        HasFlags t opr (s.v = true) (s.c = true)

/-- R161: the high byte is kept, N and Z look at the whole register. -/
def Obligations.LdbyterLoadsTheLowByte : Prop :=
  (∀ (r : Reg) (m : Mode) (w : Word),
    encode (.ldbyter r m w) = [0xD0 + 8 * regBit r + modeNumber m, w.extractLsb' 8 8, w.extractLsb' 0 8]) ∧
    ∀ (r : Reg) (m : Mode) (w : Word) (s : State),
      ∃ t v, exec (.ldbyter r m w) s = .next t ∧ t = { s.setReg r v with n := t.n, z := t.z } ∧
        v.extractLsb' 8 8 = (s.reg r).extractLsb' 8 8 ∧ v.extractLsb' 0 8 = operand8 m w s ∧
        HasFlags t v (s.v = true) (s.c = true)

/-- R162. -/
def Obligations.StrStoresTheWord : Prop :=
  (∀ (r : Reg) (m : Mode) (w : Word),
    encode (.str r m w) = [0xE0 + 8 * regBit r + modeNumber m, w.extractLsb' 8 8, w.extractLsb' 0 8]) ∧
    (∀ (r : Reg) (m : Mode) (w ea : Word) (s : State),
      effectiveAddress m w s = some ea → CanStore s ea → CanStore s (ea + 1) →
      ∃ t, exec (.str r m w) s = .next t ∧ t = { s with mem := t.mem } ∧ StoresWord s t ea (s.reg r)) ∧
    ∀ (r : Reg) (w : Word) (s : State), exec (.str r .i w) s = .fault (.illegalAddressingMode s.ir)

/-- R163. -/
def Obligations.StbyterStoresTheLowByte : Prop :=
  (∀ (r : Reg) (m : Mode) (w : Word),
    encode (.stbyter r m w) = [0xF0 + 8 * regBit r + modeNumber m, w.extractLsb' 8 8, w.extractLsb' 0 8]) ∧
    (∀ (r : Reg) (m : Mode) (w ea : Word) (s : State),
      effectiveAddress m w s = some ea → CanStore s ea →
      ∃ t, exec (.stbyter r m w) s = .next t ∧ t = { s with mem := t.mem } ∧
        StoresByte s t ea ((s.reg r).extractLsb' 0 8)) ∧
    ∀ (r : Reg) (w : Word) (s : State), exec (.stbyter r .i w) s = .fault (.illegalAddressingMode s.ir)

/-! ### Encoding -/

/-- R70: the ill-formed instructions are those of the 18 specifiers, and each raises IllegalAddressingMode with its
specifier, the trap opcodes among them only with `TRAP_MODEL = service`. -/
def Obligations.IllegalModesFault : Prop :=
  (∀ (b : Byte) (w : Word), (decodeSpecifier b w).wellFormed = false ↔ b ∈ illegalSpecifiers) ∧
    ∀ (s : State) (b : Byte), s.halted = false → s.fault = none → s.read1 s.pc = b → b ∈ illegalSpecifiers →
      (s.params.trapModel = .service ∨ 0x48 ≤ b.toNat) → step s = .fault (.illegalAddressingMode b)

/-- R50 to R53: every instruction, with every value of its fields, is decoded from its own bytes, whatever follows. -/
def Obligations.DecodeOfEncodeIsTheInstruction : Prop :=
  ∀ (i : Instr) (rest : List Byte), decode (encode i ++ rest) = .ok (i, rest)

/-- R53, R55: a decoded instruction has one encoding, the bytes it was decoded from. -/
def Obligations.EncodeOfDecodeIsTheBytes : Prop :=
  ∀ (bytes : List Byte) (i : Instr) (rest : List Byte), decode bytes = .ok (i, rest) → bytes = encode i ++ rest

/-- R55, R2: every specifier selects the row of the table whose range of specifiers it is in: the first row whose last
specifier is not below it. -/
def Obligations.EverySpecifierSelectsItsRow : Prop :=
  ∀ (b : Byte) (w : Word), rowOf (decodeSpecifier b w) = (lastSpecifiers.filter (fun last => decide (last < b.toNat))).length

/-- R51: which specifiers are unary, and that exactly their instructions have no operand specifier. -/
def Obligations.UnarySpecifiersHaveNoOperand : Prop :=
  ∀ (b : Byte) (w : Word),
    (unarySpecifier b = true ↔
      b.toNat ≤ 0x03 ∨ (0x18 ≤ b.toNat ∧ b.toNat ≤ 0x27) ∨ (0x58 ≤ b.toNat ∧ b.toNat ≤ 0x5F)) ∧
    (operandSpecifierOf (decodeSpecifier b w) = none ↔ unarySpecifier b = true)

/-- Words written out from the spec's table (R55, spec/95_test_vectors.md 2.1) decode to the instructions they stand
for. -/
def Obligations.SpecWordsDecode : Prop :=
  decode [0x00] = .ok (.stop, []) ∧
  decode [0x05, 0x00, 0x10] = .ok (.br .x 0x0010, []) ∧
  decode [0x16, 0x00, 0x0A] = .ok (.call .i 0x000A, []) ∧
  decode [0x1B] = .ok (.negr .x, []) ∧
  decode [0x25] = .ok (.nopn 1, []) ∧
  decode [0x44, 0x00, 0x02] = .ok (.stro .sf 0x0002, []) ∧
  decode [0x4B, 0x00, 0x00] = .ok (.chari .s 0x0000, []) ∧
  decode [0x5C] = .ok (.retn 4, []) ∧
  decode [0x68, 0x00, 0x04] = .ok (.subsp .i 0x0004, []) ∧
  decode [0x7F, 0x12, 0x34] = .ok (.addr .x .sxf 0x1234, []) ∧
  decode [0xED, 0x00, 0x00] = .ok (.str .x .x 0x0000, [])

/-! ### Invariants and rules about every step -/

/-- Every step keeps memory in canonical form (the model's representation of R16). -/
def Obligations.StepKeepsMemoryCanonical : Prop :=
  ∀ s t : State, Inv s → step s = .next t → Inv t

/-- R20: the start values; the reset memory is canonical and every byte reads 0. The values are the spec's defaults of
its open parameters, which the parameters hold, and `In` is empty by the model's choice (log entries 1 to 4). -/
def Obligations.ResetHoldsTheStartValues : Prop :=
  Inv State.reset ∧ State.reset.pc = 0x0000 ∧ State.reset.sp = 0xFBCF ∧ State.reset.a = 0 ∧ State.reset.x = 0 ∧
    State.reset.n = false ∧ State.reset.z = false ∧ State.reset.v = false ∧ State.reset.c = false ∧
    State.reset.ir = 0 ∧ State.reset.spec = 0 ∧ (∀ a, State.reset.read1 a = 0) ∧ State.reset.output = [] ∧
    State.reset.halted = false ∧ State.reset.fault = none ∧ State.reset.input = [] ∧ State.reset.params = defaultParams

/-- R35: no step changes a byte of ROM, whatever `ROM_WRITE` is. -/
def Obligations.RomKeepsItsBytes : Prop :=
  ∀ (s t : State) (a : Word), step s = .next t → InRom s a → t.read1 a = s.read1 a

/-- R4, R17, R18: no step changes a parameter; `In` is consumed only from the front, `Out` only appended to. -/
def Obligations.StreamsOnlyAdvance : Prop :=
  ∀ s t : State, step s = .next t →
    t.params = s.params ∧ (∃ consumed, s.input = consumed ++ t.input) ∧ ∃ added, t.output = s.output ++ added

/-- R11: SP is written only by ADDSP, SUBSP, CALL, RETn, RETTR and trap entry. -/
def Obligations.SpWrittenOnlyByItsInstructions : Prop :=
  ∀ (i : Instr) (s t : State), writesSp i = false → (IsTrap i → s.params.trapModel = .service) →
    exec i s = .next t → t.sp = s.sp

/-- R13: an instruction writes no flag outside its set. -/
def Obligations.FlagsWrittenOnlyByTheirInstructions : Prop :=
  ∀ (i : Instr) (s t : State), exec i s = .next t →
    ((flagsWritten i).1 = false → t.n = s.n) ∧ ((flagsWritten i).2.1 = false → t.z = s.z) ∧
    ((flagsWritten i).2.2.1 = false → t.v = s.v) ∧ ((flagsWritten i).2.2.2 = false → t.c = s.c)

/-- R37: memory is written only by CALL, STr, STBYTEr, CHARI, DECI and trap entry. -/
def Obligations.MemoryWrittenOnlyByItsInstructions : Prop :=
  ∀ (i : Instr) (s t : State), writesMemory i = false → (IsTrap i → s.params.trapModel = .service) →
    exec i s = .next t → t.mem = s.mem

/-! ### The start of a run and the assembler -/

/-- R230: the direct start without an operating system. The parameters stay as they are given: with `ROM_START = 0x10000`
that is R230's step 3, and that another `ROM_START` stays too is the model's choice (log entry 22). -/
def Obligations.DirectStartLoadsTheProgram : Prop :=
  ∀ (p : Params) (program input : List Byte), p.trapModel = .service → program.length ≤ 65536 →
    ∃ s, State.start p .zero .zero program [] input = some s ∧ Inv s ∧
      s = { State.reset with sp := p.userSpInit, mem := s.mem, input := input, params := p } ∧
      ∀ a : Word, s.read1 a = (program[a.toNat]?).getD 0

/-- R89, R81 to R84, R87: what the assembler makes of statements without symbols, each directive's bytes at its place
from address 0 upward. -/
def Obligations.DirectivesEmitTheirBytes : Prop :=
  ∀ (i : Instr) (k : Int) (j : Int) (count : Nat) (codes : List Byte),
    i.wellFormed = true → operandSpecifierOf i = none → -128 ≤ k → k ≤ 255 → -32768 ≤ j → j ≤ 65535 →
    count + codes.length ≤ 65000 →
    assemble [⟨none, .unary i⟩, ⟨none, .byte (.decimal k)⟩, ⟨none, .word (.decimal j)⟩, ⟨none, .block (.decimal count)⟩,
        ⟨none, .ascii codes⟩, ⟨none, .finish⟩] =
      .ok { origin := 0
            bytes := encode i ++ [BitVec.ofInt 8 k] ++
              [(BitVec.ofInt 16 j).extractLsb' 8 8, (BitVec.ofInt 16 j).extractLsb' 0 8] ++
              List.replicate count 0x00 ++ codes }

/-- R88: with `.BURN` the code after it ends at the operand's address (addresses modulo 65536), and every symbol's value,
an address or `.EQUATE`'s, moves as far as the code does; a shifted value is taken modulo 65536 (log entry 20). -/
def Obligations.BurnedCodeEndsAtItsAddress : Prop :=
  (∀ (before after : List Statement) (last : Nat) (program : ObjectProgram), last ≤ 65535 →
    (∀ st ∈ before, st.body.isBurn = false) →
    assemble (before ++ ⟨none, .burn (.decimal last)⟩ :: after) = .ok program →
    (program.origin.toNat + program.bytes.length) % 65536 = (last + 1) % 65536) ∧
  ∀ (here constant : Symbol) (count last : Nat) (k : Int) (origin : Word),
    validSymbol here = true → validSymbol constant = true → here ≠ constant → count ≤ 65535 → 3 ≤ last → last ≤ 65535 →
    -32768 ≤ k → k ≤ 65535 → origin = BitVec.ofNat 16 (last - 3) →
    assemble [⟨some constant, .equate (.decimal k)⟩, ⟨none, .block (.decimal count)⟩, ⟨none, .burn (.decimal last)⟩,
        ⟨some here, .addrss here⟩, ⟨none, .word (.symbol constant)⟩, ⟨none, .finish⟩] =
      .ok { origin := origin
            bytes := [origin.extractLsb' 8 8, origin.extractLsb' 0 8,
              (BitVec.ofInt 16 k + origin - BitVec.ofNat 16 count).extractLsb' 8 8,
              (BitVec.ofInt 16 k + origin - BitVec.ofNat 16 count).extractLsb' 0 8] }

/-- R90: a character has a code exactly if it is one of the 128, and the printable rows are the characters of their
codes. -/
def Obligations.AsciiCodesAreTheCharacters : Prop :=
  (∀ (c : Char) (b : Byte), asciiCode c = some b ↔ c.toNat = b.toNat ∧ b.toNat < 128) ∧
    (∀ b : Byte, 32 ≤ b.toNat → b.toNat < 127 → asciiRow b = some (.printable (Char.ofNat b.toNat))) ∧
    ∀ b : Byte, 128 ≤ b.toNat → asciiRow b = none
end

