-- ==== Sys2Proof/Laws/Memory.lean ====
section
/-! SUPPORT. Memory as data: what a write leaves to be read, and that every operation keeps the canonical form. -/

namespace Sys2Proof.Machine

/-! ### Reading after a write -/

@[simp] theorem Memory.read_nil (b : Nat) : Memory.read [] b = unlistedByte := rfl

theorem Memory.read_cons (k : Nat) (v : Byte) (rest : Memory) (b : Nat) :
    Memory.read ((k, v) :: rest) b = if k = b then v else Memory.read rest b := rfl

theorem Memory.read_erase (m : Memory) (a b : Nat) :
    (m.erase a).read b = if b = a then unlistedByte else m.read b := by
  induction m with
  | nil => simp [Memory.erase]
  | cons cell rest ih =>
    obtain ⟨k, v⟩ := cell
    unfold Memory.erase at ih ⊢
    by_cases hk : k = a
    · simp only [List.filter_cons, hk, bne_self_eq_false, Bool.false_eq_true, if_false, ih, Memory.read_cons]
      split <;> simp_all [eq_comm]
    · have hk' : (k != a) = true := by simpa using hk
      simp only [List.filter_cons, hk', if_true, Memory.read_cons, ih]
      split
      · next h => subst h; simp [hk]
      · rfl

theorem Memory.read_insert (m : Memory) (a : Nat) (v : Byte) (b : Nat) (hm : ∀ cell ∈ m, cell.1 ≠ a) :
    (m.insert a v).read b = if b = a then v else m.read b := by
  induction m with
  | nil => simp [Memory.insert, Memory.read_cons, eq_comm]
  | cons cell rest ih =>
    obtain ⟨k, u⟩ := cell
    have hk : k ≠ a := hm (k, u) List.mem_cons_self
    have ih := ih (fun cell h => hm cell (List.mem_cons_of_mem _ h))
    unfold Memory.insert
    split
    · rw [Memory.read_cons]
      by_cases h : b = a
      · simp [h]
      · simp [h, Ne.symm h]
    · rw [Memory.read_cons, ih, Memory.read_cons]
      by_cases h : k = b
      · simp [h, h ▸ hk]
      · simp [h]

theorem Memory.erase_not_mem (m : Memory) (a : Nat) : ∀ cell ∈ m.erase a, cell.1 ≠ a := by
  intro cell h
  simpa [Memory.erase] using (List.mem_filter.mp h).2

/-- A write is seen at its own address and nowhere else. -/
theorem Memory.read_write (m : Memory) (a : Nat) (v : Byte) (b : Nat) :
    (m.write a v).read b = if b = a then v else m.read b := by
  unfold Memory.write
  split
  · next hv => rw [Memory.read_erase, hv]
  · rw [Memory.read_insert _ _ _ _ (Memory.erase_not_mem m a), Memory.read_erase]
    split <;> rfl

/-! ### The canonical form -/

theorem Memory.wfFrom_mono {m : Memory} {lo lo' : Nat} (h : lo ≤ lo') (hm : Memory.wfFrom lo' m = true) :
    Memory.wfFrom lo m = true := by
  cases m with
  | nil => rfl
  | cons cell rest =>
    obtain ⟨k, b⟩ := cell
    simp only [Memory.wfFrom, Bool.and_eq_true, decide_eq_true_eq] at hm ⊢
    exact ⟨⟨⟨h.trans hm.1.1.1, hm.1.1.2⟩, hm.1.2⟩, hm.2⟩

theorem Memory.wfFrom_erase {m : Memory} {lo : Nat} (a : Nat) (hm : Memory.wfFrom lo m = true) :
    Memory.wfFrom lo (m.erase a) = true := by
  induction m generalizing lo with
  | nil => rfl
  | cons cell rest ih =>
    obtain ⟨k, b⟩ := cell
    simp only [Memory.wfFrom, Bool.and_eq_true, decide_eq_true_eq] at hm
    have ih := ih hm.2
    unfold Memory.erase at ih ⊢
    rw [List.filter_cons]
    split
    · simp only [Memory.wfFrom, Bool.and_eq_true, decide_eq_true_eq]
      exact ⟨hm.1, ih⟩
    · exact Memory.wfFrom_mono (by omega) ih

theorem Memory.wfFrom_insert {m : Memory} {lo a : Nat} {v : Byte} (hm : Memory.wfFrom lo m = true) (hlo : lo ≤ a)
    (ha : a < 65536) (hv : v ≠ unlistedByte) (hne : ∀ cell ∈ m, cell.1 ≠ a) :
    Memory.wfFrom lo (m.insert a v) = true := by
  induction m generalizing lo with
  | nil => simp [Memory.insert, Memory.wfFrom, hlo, ha, hv]
  | cons cell rest ih =>
    obtain ⟨k, b⟩ := cell
    have hk : k ≠ a := hne (k, b) List.mem_cons_self
    have hne : ∀ cell ∈ rest, cell.1 ≠ a := fun cell h => hne cell (List.mem_cons_of_mem _ h)
    simp only [Memory.wfFrom, Bool.and_eq_true, decide_eq_true_eq] at hm
    unfold Memory.insert
    split
    · next hlt =>
      simp only [Memory.wfFrom, Bool.and_eq_true, decide_eq_true_eq]
      exact ⟨⟨⟨hlo, ha⟩, hv⟩, ⟨⟨hlt, hm.1.1.2⟩, hm.1.2⟩, hm.2⟩
    · simp only [Memory.wfFrom, Bool.and_eq_true, decide_eq_true_eq]
      exact ⟨hm.1, ih hm.2 (by omega) hne⟩

theorem Memory.wf_nil : Memory.wf [] = true := rfl

theorem Memory.wf_write {m : Memory} (hm : m.wf = true) {a : Nat} (ha : a < 65536) (v : Byte) :
    (m.write a v).wf = true := by
  have he : Memory.wfFrom 0 (m.erase a) = true := Memory.wfFrom_erase a hm
  unfold Memory.write
  split
  · exact he
  · next hv => exact Memory.wfFrom_insert he (Nat.zero_le a) ha hv (Memory.erase_not_mem m a)

theorem Memory.wf_place {m : Memory} (hm : m.wf = true) (a : Nat) (bs : List Byte) : (m.place a bs).wf = true := by
  induction bs generalizing m a with
  | nil => exact hm
  | cons b bs ih => exact ih (Memory.wf_write hm (Nat.mod_lt _ (by decide)) b) (a + 1)

/-- No listed address of a canonical memory is below where it starts. -/
theorem Memory.read_below {m : Memory} {lo b : Nat} (hm : Memory.wfFrom lo m = true) (hb : b < lo) :
    m.read b = unlistedByte := by
  induction m generalizing lo with
  | nil => rfl
  | cons cell rest ih =>
    obtain ⟨k, v⟩ := cell
    simp only [Memory.wfFrom, Bool.and_eq_true, decide_eq_true_eq] at hm
    rw [Memory.read_cons, if_neg (by omega)]
    exact ih hm.2 (by omega)

/-- Canonical memories that read alike are equal data. -/
theorem Memory.eq_of_read_eq {m m' : Memory} {lo : Nat} (hm : Memory.wfFrom lo m = true)
    (hm' : Memory.wfFrom lo m' = true) (h : ∀ b, m.read b = m'.read b) : m = m' := by
  induction m generalizing lo m' with
  | nil =>
    cases m' with
    | nil => rfl
    | cons cell rest =>
      obtain ⟨k, v⟩ := cell
      simp only [Memory.wfFrom, Bool.and_eq_true, decide_eq_true_eq] at hm'
      have := h k
      simp only [Memory.read_nil, Memory.read_cons, if_true] at this
      exact absurd this.symm hm'.1.2
  | cons cell rest ih =>
    obtain ⟨k, v⟩ := cell
    cases m' with
    | nil =>
      simp only [Memory.wfFrom, Bool.and_eq_true, decide_eq_true_eq] at hm
      have := h k
      simp only [Memory.read_nil, Memory.read_cons, if_true] at this
      exact absurd this hm.1.2
    | cons cell' rest' =>
      obtain ⟨k', v'⟩ := cell'
      simp only [Memory.wfFrom, Bool.and_eq_true, decide_eq_true_eq] at hm hm'
      have hread : ∀ b, (if k = b then v else Memory.read rest b) = if k' = b then v' else Memory.read rest' b := h
      have hkk : k = k' := by
        rcases Nat.lt_trichotomy k k' with hlt | heq | hgt
        · have := hread k
          rw [if_pos rfl, if_neg (by omega), Memory.read_below hm'.2 (by omega)] at this
          exact absurd this hm.1.2
        · exact heq
        · have := hread k'
          rw [if_pos rfl, if_neg (by omega), Memory.read_below hm.2 (by omega)] at this
          exact absurd this.symm hm'.1.2
      subst hkk
      have hv : v = v' := by simpa using hread k
      have hrest : rest = rest' := by
        refine ih hm.2 hm'.2 (fun b => ?_)
        by_cases hb : k = b
        · subst hb
          rw [Memory.read_below hm.2 (by omega), Memory.read_below hm'.2 (by omega)]
        · simpa [hb] using hread b
      rw [hv, hrest]

end Sys2Proof.Machine
end

