-- ==== Sys2Proof/Laws/State.lean ====
section
/-! SUPPORT. One lemma per field per state update, true by computation, so that no proof unfolds an update. -/

namespace Sys2Proof.Machine

/-! ### `State.setReg` -/

@[simp] theorem State.reg_a (s : State) : s.reg .a = s.a := rfl
@[simp] theorem State.reg_x (s : State) : s.reg .x = s.x := rfl
@[simp] theorem State.setReg_a_a (s : State) (w : Word) : (s.setReg .a w).a = w := rfl
@[simp] theorem State.setReg_a_x (s : State) (w : Word) : (s.setReg .a w).x = s.x := rfl
@[simp] theorem State.setReg_x_a (s : State) (w : Word) : (s.setReg .x w).a = s.a := rfl
@[simp] theorem State.setReg_x_x (s : State) (w : Word) : (s.setReg .x w).x = w := rfl

@[simp] theorem State.reg_setReg_same (s : State) (r : Reg) (w : Word) : (s.setReg r w).reg r = w := by
  cases r <;> rfl

theorem State.reg_setReg_other (s : State) {r q : Reg} (w : Word) (h : q ≠ r) : (s.setReg r w).reg q = s.reg q := by
  cases r <;> cases q <;> first | rfl | exact absurd rfl h

@[simp] theorem State.setReg_sp (s : State) (r : Reg) (w : Word) : (s.setReg r w).sp = s.sp := by cases r <;> rfl
@[simp] theorem State.setReg_pc (s : State) (r : Reg) (w : Word) : (s.setReg r w).pc = s.pc := by cases r <;> rfl
@[simp] theorem State.setReg_n (s : State) (r : Reg) (w : Word) : (s.setReg r w).n = s.n := by cases r <;> rfl
@[simp] theorem State.setReg_z (s : State) (r : Reg) (w : Word) : (s.setReg r w).z = s.z := by cases r <;> rfl
@[simp] theorem State.setReg_v (s : State) (r : Reg) (w : Word) : (s.setReg r w).v = s.v := by cases r <;> rfl
@[simp] theorem State.setReg_c (s : State) (r : Reg) (w : Word) : (s.setReg r w).c = s.c := by cases r <;> rfl
@[simp] theorem State.setReg_ir (s : State) (r : Reg) (w : Word) : (s.setReg r w).ir = s.ir := by cases r <;> rfl
@[simp] theorem State.setReg_spec (s : State) (r : Reg) (w : Word) : (s.setReg r w).spec = s.spec := by cases r <;> rfl
@[simp] theorem State.setReg_mem (s : State) (r : Reg) (w : Word) : (s.setReg r w).mem = s.mem := by cases r <;> rfl
@[simp] theorem State.setReg_input (s : State) (r : Reg) (w : Word) : (s.setReg r w).input = s.input := by cases r <;> rfl
@[simp] theorem State.setReg_output (s : State) (r : Reg) (w : Word) : (s.setReg r w).output = s.output := by cases r <;> rfl
@[simp] theorem State.setReg_halted (s : State) (r : Reg) (w : Word) : (s.setReg r w).halted = s.halted := by cases r <;> rfl
@[simp] theorem State.setReg_fault (s : State) (r : Reg) (w : Word) : (s.setReg r w).fault = s.fault := by cases r <;> rfl
@[simp] theorem State.setReg_params (s : State) (r : Reg) (w : Word) : (s.setReg r w).params = s.params := by cases r <;> rfl

/-! ### `State.setNZ` (R150) and `State.setNZVC` (R151) -/

@[simp] theorem State.setNZ_a (s : State) (w : Word) : (s.setNZ w).a = s.a := rfl
@[simp] theorem State.setNZ_x (s : State) (w : Word) : (s.setNZ w).x = s.x := rfl
@[simp] theorem State.setNZ_sp (s : State) (w : Word) : (s.setNZ w).sp = s.sp := rfl
@[simp] theorem State.setNZ_pc (s : State) (w : Word) : (s.setNZ w).pc = s.pc := rfl
@[simp] theorem State.setNZ_n (s : State) (w : Word) : (s.setNZ w).n = w.getLsbD 15 := rfl
@[simp] theorem State.setNZ_z (s : State) (w : Word) : (s.setNZ w).z = (w == 0) := rfl
@[simp] theorem State.setNZ_v (s : State) (w : Word) : (s.setNZ w).v = s.v := rfl
@[simp] theorem State.setNZ_c (s : State) (w : Word) : (s.setNZ w).c = s.c := rfl
@[simp] theorem State.setNZ_ir (s : State) (w : Word) : (s.setNZ w).ir = s.ir := rfl
@[simp] theorem State.setNZ_spec (s : State) (w : Word) : (s.setNZ w).spec = s.spec := rfl
@[simp] theorem State.setNZ_mem (s : State) (w : Word) : (s.setNZ w).mem = s.mem := rfl
@[simp] theorem State.setNZ_input (s : State) (w : Word) : (s.setNZ w).input = s.input := rfl
@[simp] theorem State.setNZ_output (s : State) (w : Word) : (s.setNZ w).output = s.output := rfl
@[simp] theorem State.setNZ_halted (s : State) (w : Word) : (s.setNZ w).halted = s.halted := rfl
@[simp] theorem State.setNZ_fault (s : State) (w : Word) : (s.setNZ w).fault = s.fault := rfl
@[simp] theorem State.setNZ_params (s : State) (w : Word) : (s.setNZ w).params = s.params := rfl

@[simp] theorem State.setNZVC_a (s : State) (r : Sum16) : (s.setNZVC r).a = s.a := rfl
@[simp] theorem State.setNZVC_x (s : State) (r : Sum16) : (s.setNZVC r).x = s.x := rfl
@[simp] theorem State.setNZVC_sp (s : State) (r : Sum16) : (s.setNZVC r).sp = s.sp := rfl
@[simp] theorem State.setNZVC_pc (s : State) (r : Sum16) : (s.setNZVC r).pc = s.pc := rfl
@[simp] theorem State.setNZVC_n (s : State) (r : Sum16) : (s.setNZVC r).n = r.value.getLsbD 15 := rfl
@[simp] theorem State.setNZVC_z (s : State) (r : Sum16) : (s.setNZVC r).z = (r.value == 0) := rfl
@[simp] theorem State.setNZVC_v (s : State) (r : Sum16) : (s.setNZVC r).v = r.overflow := rfl
@[simp] theorem State.setNZVC_c (s : State) (r : Sum16) : (s.setNZVC r).c = r.carry := rfl
@[simp] theorem State.setNZVC_ir (s : State) (r : Sum16) : (s.setNZVC r).ir = s.ir := rfl
@[simp] theorem State.setNZVC_spec (s : State) (r : Sum16) : (s.setNZVC r).spec = s.spec := rfl
@[simp] theorem State.setNZVC_mem (s : State) (r : Sum16) : (s.setNZVC r).mem = s.mem := rfl
@[simp] theorem State.setNZVC_input (s : State) (r : Sum16) : (s.setNZVC r).input = s.input := rfl
@[simp] theorem State.setNZVC_output (s : State) (r : Sum16) : (s.setNZVC r).output = s.output := rfl
@[simp] theorem State.setNZVC_halted (s : State) (r : Sum16) : (s.setNZVC r).halted = s.halted := rfl
@[simp] theorem State.setNZVC_fault (s : State) (r : Sum16) : (s.setNZVC r).fault = s.fault := rfl
@[simp] theorem State.setNZVC_params (s : State) (r : Sum16) : (s.setNZVC r).params = s.params := rfl

/-! ### `State.outPut` (R18) and `State.afterFault` (R208) -/

@[simp] theorem State.outPut_a (s : State) (bs : List Byte) : (s.outPut bs).a = s.a := rfl
@[simp] theorem State.outPut_x (s : State) (bs : List Byte) : (s.outPut bs).x = s.x := rfl
@[simp] theorem State.outPut_sp (s : State) (bs : List Byte) : (s.outPut bs).sp = s.sp := rfl
@[simp] theorem State.outPut_pc (s : State) (bs : List Byte) : (s.outPut bs).pc = s.pc := rfl
@[simp] theorem State.outPut_n (s : State) (bs : List Byte) : (s.outPut bs).n = s.n := rfl
@[simp] theorem State.outPut_z (s : State) (bs : List Byte) : (s.outPut bs).z = s.z := rfl
@[simp] theorem State.outPut_v (s : State) (bs : List Byte) : (s.outPut bs).v = s.v := rfl
@[simp] theorem State.outPut_c (s : State) (bs : List Byte) : (s.outPut bs).c = s.c := rfl
@[simp] theorem State.outPut_ir (s : State) (bs : List Byte) : (s.outPut bs).ir = s.ir := rfl
@[simp] theorem State.outPut_spec (s : State) (bs : List Byte) : (s.outPut bs).spec = s.spec := rfl
@[simp] theorem State.outPut_mem (s : State) (bs : List Byte) : (s.outPut bs).mem = s.mem := rfl
@[simp] theorem State.outPut_input (s : State) (bs : List Byte) : (s.outPut bs).input = s.input := rfl
@[simp] theorem State.outPut_output (s : State) (bs : List Byte) : (s.outPut bs).output = s.output ++ bs := rfl
@[simp] theorem State.outPut_halted (s : State) (bs : List Byte) : (s.outPut bs).halted = s.halted := rfl
@[simp] theorem State.outPut_fault (s : State) (bs : List Byte) : (s.outPut bs).fault = s.fault := rfl
@[simp] theorem State.outPut_params (s : State) (bs : List Byte) : (s.outPut bs).params = s.params := rfl

@[simp] theorem State.afterFault_a (s : State) (e : Fault) : (s.afterFault e).a = s.a := rfl
@[simp] theorem State.afterFault_x (s : State) (e : Fault) : (s.afterFault e).x = s.x := rfl
@[simp] theorem State.afterFault_sp (s : State) (e : Fault) : (s.afterFault e).sp = s.sp := rfl
@[simp] theorem State.afterFault_pc (s : State) (e : Fault) : (s.afterFault e).pc = s.pc := rfl
@[simp] theorem State.afterFault_n (s : State) (e : Fault) : (s.afterFault e).n = s.n := rfl
@[simp] theorem State.afterFault_z (s : State) (e : Fault) : (s.afterFault e).z = s.z := rfl
@[simp] theorem State.afterFault_v (s : State) (e : Fault) : (s.afterFault e).v = s.v := rfl
@[simp] theorem State.afterFault_c (s : State) (e : Fault) : (s.afterFault e).c = s.c := rfl
@[simp] theorem State.afterFault_ir (s : State) (e : Fault) : (s.afterFault e).ir = s.ir := rfl
@[simp] theorem State.afterFault_spec (s : State) (e : Fault) : (s.afterFault e).spec = s.spec := rfl
@[simp] theorem State.afterFault_mem (s : State) (e : Fault) : (s.afterFault e).mem = s.mem := rfl
@[simp] theorem State.afterFault_input (s : State) (e : Fault) : (s.afterFault e).input = s.input := rfl
@[simp] theorem State.afterFault_output (s : State) (e : Fault) : (s.afterFault e).output = s.output := rfl
@[simp] theorem State.afterFault_halted (s : State) (e : Fault) : (s.afterFault e).halted = s.halted := rfl
@[simp] theorem State.afterFault_fault (s : State) (e : Fault) : (s.afterFault e).fault = some e := rfl
@[simp] theorem State.afterFault_params (s : State) (e : Fault) : (s.afterFault e).params = s.params := rfl

/-! ### `returnFromTrap` (R101) -/

@[simp] theorem returnFromTrap_a (s : State) : (returnFromTrap s).a = s.read2 (s.sp + 1) := rfl
@[simp] theorem returnFromTrap_x (s : State) : (returnFromTrap s).x = s.read2 (s.sp + 3) := rfl
@[simp] theorem returnFromTrap_sp (s : State) : (returnFromTrap s).sp = s.read2 (s.sp + 7) := rfl
@[simp] theorem returnFromTrap_pc (s : State) : (returnFromTrap s).pc = s.read2 (s.sp + 5) := rfl
@[simp] theorem returnFromTrap_n (s : State) : (returnFromTrap s).n = (s.read1 s.sp).getLsbD 3 := rfl
@[simp] theorem returnFromTrap_z (s : State) : (returnFromTrap s).z = (s.read1 s.sp).getLsbD 2 := rfl
@[simp] theorem returnFromTrap_v (s : State) : (returnFromTrap s).v = (s.read1 s.sp).getLsbD 1 := rfl
@[simp] theorem returnFromTrap_c (s : State) : (returnFromTrap s).c = (s.read1 s.sp).getLsbD 0 := rfl
@[simp] theorem returnFromTrap_ir (s : State) : (returnFromTrap s).ir = s.ir := rfl
@[simp] theorem returnFromTrap_spec (s : State) : (returnFromTrap s).spec = s.spec := rfl
@[simp] theorem returnFromTrap_mem (s : State) : (returnFromTrap s).mem = s.mem := rfl
@[simp] theorem returnFromTrap_input (s : State) : (returnFromTrap s).input = s.input := rfl
@[simp] theorem returnFromTrap_output (s : State) : (returnFromTrap s).output = s.output := rfl
@[simp] theorem returnFromTrap_halted (s : State) : (returnFromTrap s).halted = s.halted := rfl
@[simp] theorem returnFromTrap_fault (s : State) : (returnFromTrap s).fault = s.fault := rfl
@[simp] theorem returnFromTrap_params (s : State) : (returnFromTrap s).params = s.params := rfl

/-! ### `State.fetched` (R54) -/

@[simp] theorem State.fetched_a (s : State) : s.fetched.a = s.a := by unfold State.fetched; dsimp only; split <;> rfl
@[simp] theorem State.fetched_x (s : State) : s.fetched.x = s.x := by unfold State.fetched; dsimp only; split <;> rfl
@[simp] theorem State.fetched_sp (s : State) : s.fetched.sp = s.sp := by unfold State.fetched; dsimp only; split <;> rfl
@[simp] theorem State.fetched_n (s : State) : s.fetched.n = s.n := by unfold State.fetched; dsimp only; split <;> rfl
@[simp] theorem State.fetched_z (s : State) : s.fetched.z = s.z := by unfold State.fetched; dsimp only; split <;> rfl
@[simp] theorem State.fetched_v (s : State) : s.fetched.v = s.v := by unfold State.fetched; dsimp only; split <;> rfl
@[simp] theorem State.fetched_c (s : State) : s.fetched.c = s.c := by unfold State.fetched; dsimp only; split <;> rfl
@[simp] theorem State.fetched_ir (s : State) : s.fetched.ir = s.read1 s.pc := by unfold State.fetched; dsimp only; split <;> rfl
@[simp] theorem State.fetched_mem (s : State) : s.fetched.mem = s.mem := by unfold State.fetched; dsimp only; split <;> rfl
@[simp] theorem State.fetched_input (s : State) : s.fetched.input = s.input := by unfold State.fetched; dsimp only; split <;> rfl
@[simp] theorem State.fetched_output (s : State) : s.fetched.output = s.output := by unfold State.fetched; dsimp only; split <;> rfl
@[simp] theorem State.fetched_halted (s : State) : s.fetched.halted = s.halted := by unfold State.fetched; dsimp only; split <;> rfl
@[simp] theorem State.fetched_fault (s : State) : s.fetched.fault = s.fault := by unfold State.fetched; dsimp only; split <;> rfl
@[simp] theorem State.fetched_params (s : State) : s.fetched.params = s.params := by unfold State.fetched; dsimp only; split <;> rfl

theorem State.fetched_pc (s : State) :
    s.fetched.pc = if unarySpecifier (s.read1 s.pc) then s.pc + 1 else s.pc + 3 := by
  unfold State.fetched; dsimp only; split <;> rfl

theorem State.fetched_spec (s : State) :
    s.fetched.spec = if unarySpecifier (s.read1 s.pc) then s.spec else s.read2 (s.pc + 1) := by
  unfold State.fetched; dsimp only; split <;> rfl

/-! ### What reads memory depends on -/

theorem State.read1_congr {s t : State} (h : t.mem = s.mem) (a : Word) : t.read1 a = s.read1 a := by
  unfold State.read1; rw [h]

theorem State.read2_congr {s t : State} (h : t.mem = s.mem) (a : Word) : t.read2 a = s.read2 a := by
  unfold State.read2; rw [State.read1_congr h, State.read1_congr h]

theorem State.inRom_congr {s t : State} (h : t.params = s.params) (a : Word) : t.inRom a = s.inRom a := by
  unfold State.inRom; rw [h]

end Sys2Proof.Machine
end

