-- ==== Sys2Proof/Laws/Ops.lean ====
section
/-! SUPPORT. One lemma per shared operation that says everything it can do, for proofs to cite instead of unfolding
it. -/

namespace Sys2Proof.Machine

/-! ### How an operation ends -/

@[simp] theorem finish_ok (s : State) : finish (.ok s) = .next s := rfl
@[simp] theorem finish_fault (f : Fault) : finish (.error (.fault f)) = .fault f := rfl
@[simp] theorem finish_refused (r : Refusal) : finish (.error (.refused r)) = .refused r := rfl

theorem finish_eq_next {e : Except Stop State} {t : State} (h : finish e = .next t) : e = .ok t := by
  match e, h with
  | .ok s, h => simp only [finish_ok, Host.Outcome.next.injEq] at h; rw [h]
  | .error (.fault f), h => simp at h
  | .error (.refused r), h => simp at h

/-- A bind that ends in a value went through a value. -/
theorem bind_eq_ok {ε α β : Type} {e : Except ε α} {f : α → Except ε β} {b : β} (h : (e >>= f) = .ok b) :
    ∃ a, e = .ok a ∧ f a = .ok b := by
  cases e with
  | error stop => exact nomatch h
  | ok a => exact ⟨a, rfl, h⟩

/-! ### Bytes and words -/

theorem wordOf_hiByte_loByte (w : Word) : wordOf (hiByte w) (loByte w) = w := by
  unfold wordOf hiByte loByte
  refine BitVec.eq_of_getLsbD_eq fun i hi => ?_
  simp only [BitVec.getLsbD_append, BitVec.getLsbD_extractLsb']
  by_cases h : i < 8
  · simp [h]
  · simp [h, show i - 8 < 8 by omega, show 8 + (i - 8) = i by omega]

theorem extractLsb'_append_left {n m : Nat} (x : BitVec n) (y : BitVec m) : (x ++ y).extractLsb' m n = x := by
  refine BitVec.eq_of_getLsbD_eq fun i h => ?_
  simp [BitVec.getLsbD_append, h]

theorem extractLsb'_append_right {n m : Nat} (x : BitVec n) (y : BitVec m) : (x ++ y).extractLsb' 0 m = y := by
  refine BitVec.eq_of_getLsbD_eq fun i h => ?_
  simp [BitVec.getLsbD_append, h]

@[simp] theorem hiByte_wordOf (hi lo : Byte) : hiByte (wordOf hi lo) = hi := extractLsb'_append_left hi lo

@[simp] theorem loByte_wordOf (hi lo : Byte) : loByte (wordOf hi lo) = lo := extractLsb'_append_right hi lo

/-- An address and the next one differ, at the top of memory too. -/
theorem succ_ne_self (a : Word) : a + 1 ≠ a := by bv_omega

/-! ### Stores -/

/-- What a state with other memory reads. -/
theorem State.read1_withMem_write (s : State) (a : Word) (v : Byte) (b : Word) :
    ({ s with mem := s.mem.write a.toNat v } : State).read1 b = if b = a then v else s.read1 b := by
  show (s.mem.write a.toNat v).read b.toNat = _
  rw [Memory.read_write]
  by_cases h : b = a
  · simp [h]
  · rw [if_neg (fun hn => h (BitVec.eq_of_toNat_eq hn)), if_neg h]
    rfl

/-- A byte store that completes either falls in ROM and is ignored, or writes its byte. -/
theorem State.write1_eq_ok {s t : State} {a : Word} {v : Byte} (h : s.write1 a v = .ok t) :
    (s.inRom a = true ∧ s.params.romWrite = .ignore ∧ t = s) ∨
      (s.inRom a = false ∧ t = { s with mem := s.mem.write a.toNat v }) := by
  unfold State.write1 at h
  by_cases hr : s.inRom a = true
  · rw [if_pos hr] at h
    cases hw : s.params.romWrite <;> rw [hw] at h
    · exact .inl ⟨hr, rfl, (Except.ok.inj h).symm⟩
    · exact nomatch h
  · rw [if_neg hr] at h
    exact .inr ⟨by simpa using hr, (Except.ok.inj h).symm⟩

/-- A byte store that does not complete is a store to ROM with `ROM_WRITE = fault`. -/
theorem State.write1_eq_error {s : State} {a : Word} {v : Byte} {stop : Stop} (h : s.write1 a v = .error stop) :
    s.inRom a = true ∧ s.params.romWrite = .fault ∧ stop = .fault (.romWrite a) := by
  unfold State.write1 at h
  by_cases hr : s.inRom a = true
  · rw [if_pos hr] at h
    cases hw : s.params.romWrite <;> rw [hw] at h
    · exact nomatch h
    · exact ⟨hr, rfl, (Except.error.inj h).symm⟩
  · rw [if_neg hr] at h
    exact nomatch h

/-- A byte store completes when ROM ignores stores or the address is not in ROM. -/
theorem State.write1_completes {s : State} {a : Word} (v : Byte)
    (h : s.params.romWrite = .ignore ∨ s.inRom a = false) : ∃ t, s.write1 a v = .ok t := by
  cases hw : s.write1 a v with
  | ok t => exact ⟨t, rfl⟩
  | error stop =>
    obtain ⟨hr, hp, -⟩ := State.write1_eq_error hw
    rcases h with h | h
    · rw [hp] at h; exact nomatch h
    · rw [hr] at h; exact nomatch h

/-- A byte store changes memory only. -/
theorem State.write1_frame {s t : State} {a : Word} {v : Byte} (h : s.write1 a v = .ok t) :
    t = { s with mem := t.mem } := by
  rcases State.write1_eq_ok h with ⟨-, -, rfl⟩ | ⟨-, rfl⟩ <;> rfl

/-- What a byte store leaves to be read. -/
theorem State.write1_read1 {s t : State} {a : Word} {v : Byte} (h : s.write1 a v = .ok t) (b : Word) :
    t.read1 b = if b = a ∧ s.inRom a = false then v else s.read1 b := by
  rcases State.write1_eq_ok h with ⟨hr, -, rfl⟩ | ⟨hr, rfl⟩
  · simp [hr]
  · rw [State.read1_withMem_write]
    simp [hr]

/-- A byte store keeps the canonical form of memory. -/
theorem State.write1_wf {s t : State} {a : Word} {v : Byte} (h : s.write1 a v = .ok t) (hs : s.mem.wf = true) :
    t.mem.wf = true := by
  rcases State.write1_eq_ok h with ⟨-, -, rfl⟩ | ⟨-, rfl⟩
  · exact hs
  · exact Memory.wf_write hs a.isLt v

/-- A word store is two byte stores, the more significant byte first (R34). -/
theorem State.write2_eq_ok {s t : State} {a w : Word} (h : s.write2 a w = .ok t) :
    ∃ s', s.write1 a (hiByte w) = .ok s' ∧ s'.write1 (a + 1) (loByte w) = .ok t :=
  bind_eq_ok h

/-- A word store completes when ROM ignores stores or neither byte is in ROM. -/
theorem State.write2_completes {s : State} {a : Word} (w : Word)
    (h : s.params.romWrite = .ignore ∨ s.inRom a = false)
    (h' : s.params.romWrite = .ignore ∨ s.inRom (a + 1) = false) : ∃ t, s.write2 a w = .ok t := by
  obtain ⟨s', hs'⟩ := State.write1_completes (hiByte w) h
  have hf := State.write1_frame hs'
  have hp : s'.params = s.params := by rw [hf]
  obtain ⟨t, ht⟩ := State.write1_completes (s := s') (a := a + 1) (loByte w)
    (by rw [hp, State.inRom_congr hp]; exact h')
  exact ⟨t, by unfold State.write2; rw [hs']; exact ht⟩

/-- A word store changes memory only. -/
theorem State.write2_frame {s t : State} {a w : Word} (h : s.write2 a w = .ok t) : t = { s with mem := t.mem } := by
  obtain ⟨s', h1, h2⟩ := State.write2_eq_ok h
  rw [State.write1_frame h2, State.write1_frame h1]

/-- What a word store leaves to be read. -/
theorem State.write2_read1 {s t : State} {a w : Word} (h : s.write2 a w = .ok t) (b : Word) :
    t.read1 b =
      if b = a + 1 ∧ s.inRom (a + 1) = false then loByte w
      else if b = a ∧ s.inRom a = false then hiByte w
      else s.read1 b := by
  obtain ⟨s', h1, h2⟩ := State.write2_eq_ok h
  have hp : s'.params = s.params := by rw [State.write1_frame h1]
  rw [State.write1_read1 h2, State.inRom_congr hp, State.write1_read1 h1]

/-- A word store keeps the canonical form of memory. -/
theorem State.write2_wf {s t : State} {a w : Word} (h : s.write2 a w = .ok t) (hs : s.mem.wf = true) :
    t.mem.wf = true := by
  obtain ⟨s', h1, h2⟩ := State.write2_eq_ok h
  exact State.write1_wf h2 (State.write1_wf h1 hs)

/-! ### The streams -/

/-- `InPop()` that completes takes the first byte of `In`. -/
theorem State.inPop_eq_ok {s t : State} {b : Byte} (h : s.inPop = .ok (b, t)) :
    ∃ rest, s.input = b :: rest ∧ t = { s with input := rest } := by
  unfold State.inPop at h
  cases hi : s.input with
  | nil => rw [hi] at h; exact nomatch h
  | cons c rest =>
    rw [hi] at h
    cases Except.ok.inj h
    exact ⟨rest, rfl, rfl⟩

/-! ### The addressing modes -/

/-- `operandAddress` that completes answers the effective address of a listed mode. -/
theorem operandAddress_eq_ok {legal : List Mode} {m : Mode} {w ea : Word} {s : State}
    (h : operandAddress legal m w s = .ok ea) : m ∈ legal ∧ effectiveAddress m w s = some ea := by
  obtain ⟨_, h1, h2⟩ := bind_eq_ok h
  have hm : m ∈ legal := by
    unfold requireMode at h1
    split at h1
    · next hc => exact List.contains_iff_mem.mp hc
    · exact nomatch h1
  cases he : effectiveAddress m w s with
  | none => rw [he] at h2; exact nomatch h2
  | some a => rw [he] at h2; exact ⟨hm, congrArg some (Except.ok.inj h2)⟩

/-- `operandAddress` completes for a listed mode that has an address. -/
theorem operandAddress_completes {legal : List Mode} {m : Mode} {w ea : Word} {s : State} (hm : m ∈ legal)
    (he : effectiveAddress m w s = some ea) : operandAddress legal m w s = .ok ea := by
  unfold operandAddress requireMode
  rw [if_pos (List.contains_iff_mem.mpr hm), he]
  rfl

/-- Every mode but the immediate one has an address, and is a destination mode. -/
theorem destinationModes_of_ea {m : Mode} {w ea : Word} {s : State} (he : effectiveAddress m w s = some ea) :
    m ∈ destinationModes := by
  cases m with
  | i => exact nomatch he
  | _ => decide

/-! ### The trap -/

/-- The dispatch of a trap instruction that completes: its service effect, or trap entry (R129). -/
theorem dispatchTrap_eq_next {s t : State} {service : Except Stop State} (h : dispatchTrap s service = .next t) :
    (s.params.trapModel = .service ∧ service = .ok t) ∨ (s.params.trapModel = .hardware ∧ takeTrap s = .ok t) := by
  unfold dispatchTrap at h
  cases hm : s.params.trapModel <;> rw [hm] at h
  · exact .inl ⟨rfl, finish_eq_next h⟩
  · exact .inr ⟨rfl, finish_eq_next h⟩

/-- Trap entry that completes: the six stores of the frame, one after the other, then SP and PC (R203). -/
theorem takeTrap_eq_ok {s t : State} (h : takeTrap s = .ok t) :
    ∃ s1 s2 s3 s4 s5 s6 : State,
      s.write1 (s.read2 sysSpVector - 1) s.ir = .ok s1 ∧ s1.write2 (s.read2 sysSpVector - 3) s.sp = .ok s2 ∧
      s2.write2 (s.read2 sysSpVector - 5) s.pc = .ok s3 ∧ s3.write2 (s.read2 sysSpVector - 7) s.x = .ok s4 ∧
      s4.write2 (s.read2 sysSpVector - 9) s.a = .ok s5 ∧
      s5.write1 (s.read2 sysSpVector - 10) (0b0000#4 ++ s.flagsNibble) = .ok s6 ∧
      t = { s6 with sp := s.read2 sysSpVector - 10, pc := s6.read2 trapPcVector } := by
  obtain ⟨s1, h1, h⟩ := bind_eq_ok h
  obtain ⟨s2, h2, h⟩ := bind_eq_ok h
  obtain ⟨s3, h3, h⟩ := bind_eq_ok h
  obtain ⟨s4, h4, h⟩ := bind_eq_ok h
  obtain ⟨s5, h5, h⟩ := bind_eq_ok h
  obtain ⟨s6, h6, h⟩ := bind_eq_ok h
  exact ⟨s1, s2, s3, s4, s5, s6, h1, h2, h3, h4, h5, h6, (Except.ok.inj h).symm⟩

end Sys2Proof.Machine
end

