-- ==== Sys2Proof/Laws/Assembler.lean ====
section
/-! SUPPORT. The assembler: a statement emits the bytes it reserves, and where a source is split at `.BURN`. -/

namespace Sys2Proof.Machine

theorem instrBytes_length {size : Nat} {i : Instr} {bytes : List Byte} (h : instrBytes size i = .ok bytes) :
    bytes.length = size := by
  unfold instrBytes at h
  split at h
  · exact nomatch h
  · split at h
    · exact nomatch h
    · next hlen =>
      cases Except.ok.inj h
      simpa using hlen

/-- A statement emits as many bytes as it reserves, whatever the shift is. -/
theorem Body.bytes_length {table : SymbolTable} {shift : Int} {body : Body} {size : Nat} {bytes : List Byte}
    (hs : body.size (table.lookup 0) = .ok size) (hb : body.bytes table shift = .ok bytes) : bytes.length = size := by
  cases body with
  | unary i => cases Except.ok.inj hs; exact instrBytes_length hb
  | branch build o mode | general build o mode =>
    cases Except.ok.inj hs
    obtain ⟨_, -, hb⟩ := bind_eq_ok hb
    exact instrBytes_length hb
  | byte o =>
    cases Except.ok.inj hs
    obtain ⟨_, -, hb⟩ := bind_eq_ok hb
    obtain ⟨_, -, hb⟩ := bind_eq_ok hb
    cases Except.ok.inj hb
    rfl
  | word o | addrss name | equate o | burn o =>
    cases Except.ok.inj hs
    obtain ⟨_, -, hb⟩ := bind_eq_ok hb
    cases Except.ok.inj hb
    rfl
  | block o =>
    obtain ⟨k, hk, hb⟩ := bind_eq_ok hb
    cases Except.ok.inj hb
    rw [List.length_replicate]
    exact Except.ok.inj (hk.symm.trans hs)
  | ascii codes => cases Except.ok.inj hs; cases Except.ok.inj hb; rfl
  | finish => cases Except.ok.inj hs; cases Except.ok.inj hb; rfl

/-- Statements emit as many bytes as they reserve, whatever the shift is. -/
theorem bytesOf_length {table : SymbolTable} {shift : Int} {statements : List Statement} {size : Nat}
    {bytes : List Byte} (hs : reservedBytes (table.lookup 0) statements = .ok size)
    (hb : bytesOf table shift statements = .ok bytes) : bytes.length = size := by
  induction statements generalizing size bytes with
  | nil => cases Except.ok.inj hs; cases Except.ok.inj hb; rfl
  | cons st rest ih =>
    obtain ⟨_, hs1, hs⟩ := bind_eq_ok hs
    obtain ⟨_, hs2, hs⟩ := bind_eq_ok hs
    obtain ⟨_, hb1, hb⟩ := bind_eq_ok hb
    obtain ⟨_, hb2, hb⟩ := bind_eq_ok hb
    cases Except.ok.inj hs
    cases Except.ok.inj hb
    rw [List.length_append, Body.bytes_length hs1 hb1, ih hs2 hb2]

/-- A source is split at its first `.BURN`. -/
theorem splitAtBurn_append {before after : List Statement} {label : Option Symbol} {o : Operand}
    (h : ∀ st ∈ before, st.body.isBurn = false) :
    splitAtBurn (before ++ ⟨label, .burn o⟩ :: after) = some (before, o, after) := by
  induction before with
  | nil => rfl
  | cons st rest ih =>
    have hst := h st List.mem_cons_self
    rw [List.cons_append, splitAtBurn, ih fun st' hst' => h st' (List.mem_cons_of_mem _ hst')]
    cases hb : st.body <;> first | rfl | (rw [hb] at hst; exact nomatch hst)

end Sys2Proof.Machine
end

