-- ==== Sys2Proof/Laws/Boot.lean ====
section
/-! SUPPORT. The host's start of a run: what `State.ready` and the two actions of R231 leave. -/

namespace Sys2Proof.Machine

@[simp] theorem State.initRegs_mem (s : State) (regs : InitRegs) : (s.initRegs regs).mem = s.mem := by cases regs <;> rfl
@[simp] theorem State.initRegs_params (s : State) (regs : InitRegs) : (s.initRegs regs).params = s.params := by
  cases regs <;> rfl
@[simp] theorem State.ready_mem (s : State) (regs : InitRegs) (sp : Word) (input : List Byte) :
    (s.ready regs sp input).mem = s.mem := State.initRegs_mem _ _
@[simp] theorem State.ready_params (s : State) (regs : InitRegs) (sp : Word) (input : List Byte) :
    (s.ready regs sp input).params = s.params := State.initRegs_params _ _

/-- Of the state before, a ready machine has memory and the parameters only. -/
theorem State.ready_congr {s t : State} (hm : s.mem = t.mem) (hp : s.params = t.params) (regs : InitRegs) (sp : Word)
    (input : List Byte) : s.ready regs sp input = t.ready regs sp input := by
  unfold State.ready
  cases regs <;> simp only [State.initRegs, hm, hp]

/-- R231: "execute" after "load" is the state of R230, once the loader has left memory as the direct start has it. -/
theorem State.osExecute_eq_start {s t : State} {p : Params} {regs : InitRegs} {fill : InitMem}
    {program os input : List Byte} (hos : os.isEmpty = false)
    (h : State.start p regs fill program os input = some t) (hm : s.mem = t.mem) (hp : s.params = t.params) :
    s.osExecute regs input = t := by
  unfold State.start at h
  split at h
  · simp only [hos, Option.some.injEq] at h
    subst h
    simp only [State.ready_mem, State.ready_params] at hm hp
    have hv : s.read2 userSpVector = State.read2 { State.reset with mem := loadedMemory fill program os } userSpVector := by
      simp only [State.read2, State.read1, hm]
    unfold State.osExecute
    rw [hv]
    exact State.ready_congr hm hp regs _ input
  · exact nomatch h

end Sys2Proof.Machine
end

