-- ==== Sys2Proof/Laws/PerInstr.lean ====
section
/-! SUPPORT. Facts about every instruction as syntax, one lemma per constructor: its length (spec/30_encoding.md R50). -/

namespace Sys2Proof.Laws.EncodedLength

/-- An instruction is 1 byte long if it has no operand specifier, else 3 (R50). -/
def Statement (i : Instr) : Prop := (encode i).length = if (operandSpecifierOf i).isNone then 1 else 3

theorem stop : Statement .stop := rfl
theorem rettr : Statement .rettr := rfl
theorem movspa : Statement .movspa := rfl
theorem movflga : Statement .movflga := rfl
theorem br (a : BranchMode) (spec : Word) : Statement (.br a spec) := rfl
theorem brle (a : BranchMode) (spec : Word) : Statement (.brle a spec) := rfl
theorem brlt (a : BranchMode) (spec : Word) : Statement (.brlt a spec) := rfl
theorem breq (a : BranchMode) (spec : Word) : Statement (.breq a spec) := rfl
theorem brne (a : BranchMode) (spec : Word) : Statement (.brne a spec) := rfl
theorem brge (a : BranchMode) (spec : Word) : Statement (.brge a spec) := rfl
theorem brgt (a : BranchMode) (spec : Word) : Statement (.brgt a spec) := rfl
theorem brv (a : BranchMode) (spec : Word) : Statement (.brv a spec) := rfl
theorem brc (a : BranchMode) (spec : Word) : Statement (.brc a spec) := rfl
theorem call (a : BranchMode) (spec : Word) : Statement (.call a spec) := rfl
theorem notr (r : Reg) : Statement (.notr r) := rfl
theorem negr (r : Reg) : Statement (.negr r) := rfl
theorem aslr (r : Reg) : Statement (.aslr r) := rfl
theorem asrr (r : Reg) : Statement (.asrr r) := rfl
theorem rolr (r : Reg) : Statement (.rolr r) := rfl
theorem rorr (r : Reg) : Statement (.rorr r) := rfl
theorem nopn (nn : BitVec 2) : Statement (.nopn nn) := rfl
theorem nop (m : Mode) (spec : Word) : Statement (.nop m spec) := rfl
theorem deci (m : Mode) (spec : Word) : Statement (.deci m spec) := rfl
theorem deco (m : Mode) (spec : Word) : Statement (.deco m spec) := rfl
theorem stro (m : Mode) (spec : Word) : Statement (.stro m spec) := rfl
theorem chari (m : Mode) (spec : Word) : Statement (.chari m spec) := rfl
theorem charo (m : Mode) (spec : Word) : Statement (.charo m spec) := rfl
theorem retn (n : BitVec 3) : Statement (.retn n) := rfl
theorem addsp (m : Mode) (spec : Word) : Statement (.addsp m spec) := rfl
theorem subsp (m : Mode) (spec : Word) : Statement (.subsp m spec) := rfl
theorem addr (r : Reg) (m : Mode) (spec : Word) : Statement (.addr r m spec) := rfl
theorem subr (r : Reg) (m : Mode) (spec : Word) : Statement (.subr r m spec) := rfl
theorem andr (r : Reg) (m : Mode) (spec : Word) : Statement (.andr r m spec) := rfl
theorem orr (r : Reg) (m : Mode) (spec : Word) : Statement (.orr r m spec) := rfl
theorem cpr (r : Reg) (m : Mode) (spec : Word) : Statement (.cpr r m spec) := rfl
theorem ldr (r : Reg) (m : Mode) (spec : Word) : Statement (.ldr r m spec) := rfl
theorem ldbyter (r : Reg) (m : Mode) (spec : Word) : Statement (.ldbyter r m spec) := rfl
theorem str (r : Reg) (m : Mode) (spec : Word) : Statement (.str r m spec) := rfl
theorem stbyter (r : Reg) (m : Mode) (spec : Word) : Statement (.stbyter r m spec) := rfl

end Sys2Proof.Laws.EncodedLength
end

