-- ==== Sys2Proof/Tests/Slice0.lean ====
section
/-! SUPPORT. Tests. Every expected value of a `test_` theorem is from spec/95_test_vectors.md (its section in the
comment) or from the encoding tables of spec/30_encoding.md; a `witness_` theorem shows that the hypotheses of an
obligation can be met, at boundary values where there are any. -/

namespace Sys2Proof.Tests

open Sys2Proof Sys2Proof.Machine Sys2Proof.Claims

/-- Bytes stored from address `a` upward. -/
def storing (s : State) (a : Nat) (bytes : List Byte) : State := { s with mem := s.mem.place a bytes }

/-- The reset machine with these bytes from address 0 upward. -/
def program (bytes : List Byte) : State := storing State.reset 0 bytes

/-- The flags in the order N, Z, V, C. -/
def nzvc (s : State) : Bool × Bool × Bool × Bool := (s.n, s.z, s.v, s.c)

/-- Memory bytes from an address upward. -/
def bytesAt (s : State) (a : Word) (count : Nat) : List Byte :=
  (List.range count).map (fun k => s.read1 (a + BitVec.ofNat 16 k))

/-! ### WellFormed: each check refuses an ill-formed term (R70) -/

theorem test_wellFormed_nop_needs_immediate :
    (Instr.nop .d 0).wellFormed = false ∧ (Instr.nop .sxf 0).wellFormed = false ∧ (Instr.nop .i 0).wellFormed = true := by
  decide

theorem test_wellFormed_destination_is_not_immediate :
    (Instr.deci .i 0).wellFormed = false ∧ (Instr.chari .i 0).wellFormed = false ∧
    (Instr.str .a .i 0).wellFormed = false ∧ (Instr.stbyter .x .i 0).wellFormed = false ∧
    (Instr.str .a .d 0).wellFormed = true := by
  decide

theorem test_wellFormed_stro_needs_string_mode :
    (Instr.stro .i 0).wellFormed = false ∧ (Instr.stro .s 0).wellFormed = false ∧ (Instr.stro .x 0).wellFormed = false ∧
    (Instr.stro .sx 0).wellFormed = false ∧ (Instr.stro .sxf 0).wellFormed = false ∧
    (Instr.stro .sf 0).wellFormed = true := by
  decide

/-! ### Decoding: one word per row of the opcode table (95 section 1.1 and 1.2) -/

/-- What the decoder makes of bytes, if it does not refuse them. -/
def decoded (bytes : List Byte) : Option (Instr × List Byte) := (decode bytes).toOption

theorem test_decode_control :
    decoded [0x00] = some (.stop, []) ∧ decoded [0x01] = some (.rettr, []) ∧ decoded [0x02] = some (.movspa, []) ∧
    decoded [0x03] = some (.movflga, []) := by
  decide

theorem test_decode_branches :
    decoded [0x04, 0x00, 0x07] = some (.br .i 0x0007, []) ∧ decoded [0x05, 0x12, 0x34] = some (.br .x 0x1234, []) ∧
    decoded [0x06, 0x80, 0x01] = some (.brle .i 0x8001, []) ∧ decoded [0x09, 0x00, 0x20] = some (.brlt .x 0x0020, []) ∧
    decoded [0x0A, 0x00, 0x20] = some (.breq .i 0x0020, []) ∧ decoded [0x0D, 0x00, 0x20] = some (.brne .x 0x0020, []) ∧
    decoded [0x0E, 0x00, 0x20] = some (.brge .i 0x0020, []) ∧ decoded [0x11, 0x00, 0x20] = some (.brgt .x 0x0020, []) ∧
    decoded [0x12, 0x00, 0x20] = some (.brv .i 0x0020, []) ∧ decoded [0x15, 0x00, 0x20] = some (.brc .x 0x0020, []) ∧
    decoded [0x17, 0x00, 0x10] = some (.call .x 0x0010, []) := by
  decide

theorem test_decode_unary_registers :
    decoded [0x18] = some (.notr .a, []) ∧ decoded [0x1B] = some (.negr .x, []) ∧ decoded [0x1C] = some (.aslr .a, []) ∧
    decoded [0x1F] = some (.asrr .x, []) ∧ decoded [0x20] = some (.rolr .a, []) ∧ decoded [0x23] = some (.rorr .x, []) := by
  decide

theorem test_decode_traps :
    decoded [0x24] = some (.nopn 0, []) ∧ decoded [0x27] = some (.nopn 3, []) ∧
    decoded [0x28, 0x12, 0x34] = some (.nop .i 0x1234, []) ∧ decoded [0x31, 0x00, 0x10] = some (.deci .d 0x0010, []) ∧
    decoded [0x3F, 0x00, 0x02] = some (.deco .sxf 0x0002, []) ∧ decoded [0x44, 0x00, 0x02] = some (.stro .sf 0x0002, []) := by
  decide

theorem test_decode_characters :
    decoded [0x4A, 0x00, 0x0D] = some (.chari .n 0x000D, []) ∧ decoded [0x55, 0x00, 0x10] = some (.charo .x 0x0010, []) := by
  decide

theorem test_decode_stack :
    decoded [0x58] = some (.retn 0, []) ∧ decoded [0x5F] = some (.retn 7, []) ∧
    decoded [0x63, 0x00, 0x00] = some (.addsp .s 0x0000, []) ∧ decoded [0x6E, 0x00, 0x04] = some (.subsp .sx 0x0004, []) := by
  decide

theorem test_decode_arith :
    decoded [0x7F, 0x00, 0x03] = some (.addr .x .sxf 0x0003, []) ∧ decoded [0x80, 0x00, 0x03] = some (.subr .a .i 0x0003, []) ∧
    decoded [0x99, 0x00, 0xFF] = some (.andr .x .d 0x00FF, []) ∧ decoded [0xA2, 0x00, 0xFF] = some (.orr .a .n 0x00FF, []) ∧
    decoded [0xBB, 0x00, 0x05] = some (.cpr .x .s 0x0005, []) := by
  decide

theorem test_decode_load_store :
    decoded [0xC7, 0x00, 0x04] = some (.ldr .a .sxf 0x0004, []) ∧ decoded [0xD8, 0x12, 0x34] = some (.ldbyter .x .i 0x1234, []) ∧
    decoded [0xE6, 0x00, 0x04] = some (.str .a .sx 0x0004, []) ∧ decoded [0xFC, 0x00, 0x04] = some (.stbyter .x .sf 0x0004, []) := by
  decide

/-- What follows an instruction is left alone, and bytes that are missing are refused by name. -/
theorem test_decode_rest_and_refusals :
    decoded [0x58, 0xC0] = some (.retn 0, [0xC0]) ∧ decode [] = .error .noSpecifier ∧
    decode [0xC0, 0x12] = .error (.missingOperandSpecifier 0xC0) :=
  ⟨by decide, rfl, rfl⟩

theorem test_table_words :
    decodeTableWord 24 0x3412C0 = some (.ldr .a .i 0x1234) ∧ decodeTableWord 8 0xC0 = some (.ldr .a .i 0x0000) ∧
    decodeTableWord 8 0x5F = some (.retn 7) := by
  decide

theorem test_fetch_word_runs :
    let t := advance (State.reset.withFetchWord 24 0x3412C0)
    (t.a, t.pc, t.ir, t.spec) = (0x1234, 0x0003, 0xC0, 0x1234) := by
  decide

/-! ### 95 section 2.12 -/

theorem test_stop :
    advance { storing State.reset 0x0006 [0x00] with pc := 0x0006 } =
      { storing State.reset 0x0006 [0x00] with pc := 0x0007, halted := true } := by
  decide

theorem test_stop_ends_the_run :
    (runFor 5 (program [0x02, 0x00])).pc = 0x0002 ∧ (runFor 5 (program [0x02, 0x00])).halted = true := by
  decide

theorem test_rettr_ignores_the_high_nibble :
    let s := storing (program [0x01]) 0x3000 [0xF5, 0xFF, 0xFE, 0x80, 0x00, 0x01, 0x00, 0x30, 0x09, 0xAA]
    let t := advance { s with sp := 0x3000 }
    (nzvc t, t.a, t.x, t.pc, t.sp) = ((false, true, false, true), 0xFFFE, 0x8000, 0x0100, 0x3009) := by
  decide

theorem test_movspa :
    let t := advance { program [0x02] with a := 0x1234 }
    (t.a, t.sp, nzvc t) = (0xFBCF, 0xFBCF, false, false, false, false) := by
  decide

theorem test_movflga_zero : (advance { program [0x03] with a := 0xABCD, n := true, c := true }).a = 0x0009 := by decide

theorem test_movflga_preserve :
    (advance { program [0x03] with
      a := 0xABCD, z := true, v := true, params := { defaultParams with movflgaUpper := .preserve } }).a = 0xAB06 := by
  decide

/-! ### 95 section 2.10 -/

/-- Whether the branch `op 00 20` at 0x0003 is taken, for the six flag columns of the table. -/
def takenColumns (op : Byte) : List Bool :=
  let run (n z v c : Bool) : Bool :=
    decide ((advance { storing State.reset 3 [op, 0x00, 0x20] with pc := 0x0003, n := n, z := z, v := v, c := c }).pc = 0x0020)
  [run false false false false, run false true false false, run true false false false, run true true false false,
    run false false true false, run false false false true]

theorem test_br : takenColumns 0x04 = [true, true, true, true, true, true] := by decide
theorem test_brle : takenColumns 0x06 = [false, true, true, true, false, false] := by decide
theorem test_brlt : takenColumns 0x08 = [false, false, true, true, false, false] := by decide
theorem test_breq : takenColumns 0x0A = [false, true, false, true, false, false] := by decide
theorem test_brne : takenColumns 0x0C = [true, false, true, false, true, true] := by decide
theorem test_brge : takenColumns 0x0E = [true, true, false, false, true, true] := by decide
theorem test_brgt : takenColumns 0x10 = [true, false, false, false, true, true] := by decide
theorem test_brv : takenColumns 0x12 = [false, false, false, false, true, false] := by decide
theorem test_brc : takenColumns 0x14 = [false, false, false, false, false, true] := by decide

theorem test_breq_indexed :
    let s := storing (storing State.reset 3 [0x0B, 0x00, 0x10]) 0x14 [0x00, 0x30]
    (advance { s with pc := 0x0003, x := 4, z := true }).pc = 0x0030 ∧ (advance { s with pc := 0x0003, x := 4 }).pc = 0x0006 := by
  decide

theorem test_call_wraps :
    let t := advance { storing State.reset 0x40 [0x16, 0x00, 0x10] with pc := 0x0040, sp := 0x0001 }
    (t.sp, t.read1 0xFFFF, t.read1 0x0000, t.pc) = (0xFFFF, 0x00, 0x43, 0x0010) := by
  decide

theorem test_call_indexed :
    let s := storing (storing State.reset 0x40 [0x17, 0x00, 0x10]) 0x12 [0x01, 0x00]
    let t := advance { s with pc := 0x0040, sp := 0x2000, x := 2 }
    (t.sp, bytesAt t 0x1FFE 2, t.pc) = (0x1FFE, [0x00, 0x43], 0x0100) := by
  decide

/-! ### 95 sections 2.7 and 2.8 -/

/-- A and the flags after a unary instruction. -/
def unaryOnA (op : Byte) (a : Word) (c : Bool) : Word × Bool × Bool × Bool × Bool :=
  let t := advance { program [op] with a := a, c := c }
  (t.a, nzvc t)

theorem test_not : unaryOnA 0x18 0x8000 true = (0x7FFF, false, false, false, true) := by decide
theorem test_neg : unaryOnA 0x1A 0x8000 true = (0x8000, true, false, true, true) := by decide
theorem test_asl : unaryOnA 0x1C 0x8001 false = (0x0002, false, false, true, true) := by decide
theorem test_asr : unaryOnA 0x1E 0x8001 false = (0xC000, true, false, false, true) := by decide
theorem test_rol : unaryOnA 0x20 0x8000 false = (0x0000, false, false, false, true) := by decide
theorem test_ror : unaryOnA 0x22 0x0001 true = (0x8000, false, false, false, true) := by decide

/-! ### 95 sections 2.14 and 2.15 -/

theorem test_nopn : advance (program [0x25]) = { program [0x25] with pc := 0x0001, ir := 0x25 } := by decide

theorem test_nop :
    advance (program [0x28, 0x12, 0x34]) = { program [0x28, 0x12, 0x34] with pc := 0x0003, ir := 0x28, spec := 0x1234 } := by
  decide

/-- The hardware parameters of section 2.15. -/
def hardware : Params := { defaultParams with trapModel := .hardware }

theorem test_nopn_traps :
    let s := storing (storing (storing State.reset 3 [0x25]) 0xFFFA [0x01, 0x00]) 0xFFFE [0x00, 0x80]
    let t := advance { s with pc := 0x0003, a := 0x8001, n := true, params := hardware }
    (bytesAt t 0x00F6 10, t.sp, t.pc, t.a) =
      ([0x08, 0x80, 0x01, 0x00, 0x00, 0x00, 0x04, 0xFB, 0xCF, 0x25], 0x00F6, 0x0080, 0x8001) := by
  decide

/-- The illegal mode i of DECI is no fault in this model: it traps (section 2.15, row 3). -/
theorem test_deci_immediate_traps :
    let s := storing (storing (program [0x30, 0x00, 0x10]) 0xFFFA [0xFC, 0x4F]) 0xFFFE [0xFC, 0x9B]
    let t := advance { s with params := hardware }
    (t.fault, t.pc, t.sp, t.read1 0xFC4E, t.read2 0xFC4A) = (none, 0xFC9B, 0xFC45, 0x30, 0x0003) := by
  decide

/-- DECI 0x0010,d with this input, C = 1 before. -/
def deciOn (input : List Byte) : State :=
  advance { storing (program [0x31, 0x00, 0x10]) 0x10 [0xEE, 0xEE] with input := input, c := true }

theorem test_deci_values_and_faults :
    ((deciOn [0x2D, 0x33, 0x32, 0x37, 0x36, 0x39, 0x0A]).read2 0x0010 = 0x7FFF ∧
      nzvc (deciOn [0x2D, 0x33, 0x32, 0x37, 0x36, 0x39, 0x0A]) = (false, false, true, true)) ∧
    (deciOn [0x35, 0x2D, 0x33, 0x20]).input = [0x33, 0x20] ∧
    (deciOn [0x31, 0x32]).fault = some .inputExhausted ∧ (deciOn [0x31, 0x32]).input = [0x31, 0x32] ∧
    (deciOn [0x09, 0x35, 0x20]).fault = some (.invalidDeciInput 0x09) ∧ (deciOn [0x09, 0x35, 0x20]).read2 0x0010 = 0xEEEE := by
  decide

theorem test_deco :
    (advance (program [0x38, 0x80, 0x00])).output = [0x2D, 0x33, 0x32, 0x37, 0x36, 0x38] ∧
    (advance (program [0x38, 0x00, 0x00])).output = [0x30] := by
  decide

theorem test_stro_wraps :
    let s := storing (storing (storing State.reset 0x100 [0x44, 0x00, 0x02]) 0x1002 [0xFF, 0xFE]) 0xFFFE [0x61, 0x62]
    (advance { s with pc := 0x0100, sp := 0x1000 }).output = [0x61, 0x62] := by
  decide

/-! ### 95 section 2.13 -/

theorem test_chari :
    let t := advance { program [0x4B, 0x00, 0x00] with sp := 0x2000, input := [0xFF], n := true, z := true }
    (t.read1 0x2000, t.read1 0x2001, t.input, nzvc t) = (0xFF, 0x00, [], true, true, false, false) := by
  decide

theorem test_chari_empty_input :
    advance (program [0x49, 0x00, 0x0D]) = { program [0x49, 0x00, 0x0D] with fault := some .inputExhausted } ∧
    step { program [0x49, 0x00, 0x0D] with params := { defaultParams with inputEof := .block } } =
      .refused .waitingForInput :=
  ⟨by decide, rfl⟩

theorem test_charo :
    (advance (program [0x50, 0x12, 0x41])).output = [0x41] ∧
    (advance (storing (program [0x51, 0x00, 0x0D]) 0x0D [0x0A])).output = [0x0A] := by
  decide

/-! ### 95 section 2.11 -/

theorem test_retn :
    let t := advance { storing (program [0x5F]) 0x1007 [0xAB, 0xCD] with sp := 0x1000 }
    (t.pc, t.sp) = (0xABCD, 0x1009) := by
  decide

theorem test_addsp_reads_with_the_old_sp :
    let t := advance { storing (program [0x63, 0x00, 0x00]) 0x1000 [0x00, 0x06] with sp := 0x1000 }
    (t.sp, nzvc t) = (0x1006, false, false, false, false) := by
  decide

theorem test_subsp :
    let t := advance { program [0x68, 0x00, 0x01] with sp := 0x8000 }
    (t.sp, nzvc t) = (0x7FFF, false, false, true, true) := by
  decide

/-! ### 95 sections 2.3 to 2.6 -/

theorem test_add :
    let t := advance { program [0x70, 0x80, 0x00] with a := 0x8000 }
    (t.a, nzvc t) = (0x0000, false, true, true, true) := by
  decide

theorem test_sub_adder :
    let t := advance { program [0x80, 0x80, 0x00] with a := 0x0001 }
    (t.a, nzvc t) = (0x8001, true, false, true, false) := by
  decide

theorem test_sub_negate_then_add :
    let t := advance { program [0x80, 0x80, 0x00] with a := 0xFFFF, params := { defaultParams with subFlags := .negateThenAdd } }
    (t.a, nzvc t) = (0x7FFF, false, false, true, true) := by
  decide

theorem test_and_keeps_v_and_c :
    let t := advance { program [0x90, 0x0F, 0x0F] with a := 0xF0F0, v := true, c := true }
    (t.a, nzvc t) = (0x0000, false, true, true, true) := by
  decide

theorem test_or :
    let t := advance { program [0xA0, 0x80, 0x34] with a := 0x1200, v := true, c := true }
    (t.a, nzvc t) = (0x9234, true, false, true, true) := by
  decide

theorem test_cp :
    let t := advance { program [0xB8, 0x00, 0x01] with x := 0x8000 }
    (t.x, nzvc t) = (0x8000, false, false, true, true) := by
  decide

/-! ### 95 sections 2.2 and 2.9 -/

/-- The memory of section 2.2, with the instruction at 0x0100. -/
def modes (op : Byte) : State :=
  { storing (storing (storing (storing (storing State.reset 0x100 [op, 0x00, 0x04]) 0x04 [0x00, 0x10, 0x12, 0x34])
      0x10 [0xAB, 0xCD]) 0x20 [0x56, 0x78, 0xDE, 0xF0]) 0xFBCF [0x00, 0x20, 0x9A, 0xBC]
    with pc := 0x0100, sp := 0xFBCB, x := 0x0002 }

theorem test_ld_all_modes :
    [0xC0, 0xC1, 0xC2, 0xC3, 0xC4, 0xC5, 0xC6, 0xC7].map (fun op => (advance (modes op)).a) =
      [0x0004, 0x0010, 0xABCD, 0x0020, 0x5678, 0x1234, 0x9ABC, 0xDEF0] := by
  decide

theorem test_ldbyte_sets_flags_from_the_whole_register :
    let t := advance { program [0xD1, 0x00, 0x10] with a := 0x1200 }
    (t.a, nzvc t) = (0x1200, false, false, false, false) := by
  decide

theorem test_st_wraps :
    let t := advance { storing State.reset 0x100 [0xE1, 0xFF, 0xFF] with pc := 0x0100, a := 0xABCD }
    (t.read1 0xFFFF, t.read1 0x0000) = (0xAB, 0xCD) := by
  decide

theorem test_stbyte :
    let t := advance { program [0xF9, 0x00, 0x10] with x := 0x1234 }
    bytesAt t 0x0010 2 = [0x34, 0x00] := by
  decide

/-! ### Faults (95 section 2.1, R35, R17) -/

/-- The fault vector: the state is that of before the fetch, with `Fault` set. -/
theorem test_illegal_mode_rolls_back :
    let s := { storing State.reset 0x10 [0xE8, 0x12, 0x34] with pc := 0x0010, a := 1, x := 2 }
    advance s = { s with fault := some (.illegalAddressingMode 0xE8) } := by
  decide

theorem test_rom_write_faults_at_the_first_byte_in_rom :
    let p := { defaultParams with romStart := ⟨0xFC50, by decide⟩, romWrite := .fault }
    (advance { program [0xE1, 0xFC, 0x4F] with params := p }).fault = some (.romWrite 0xFC50) := by
  decide

/-! ### The start of a run (R230, U12) -/

/-- With an operating system image: ROM from its first byte, SP from the word at 0xFFF8. -/
theorem test_start_with_an_operating_system :
    (State.start hardware .zero .zero [0x25] [0x12, 0x34, 0x01, 0x00, 0x00, 0x00, 0x00, 0x80] []).map
        (fun s => (s.sp, s.params.romStart.val, s.read1 0x0000, s.read2 0xFFFE)) =
      some (0x1234, 0xFFF8, 0x25, 0x0080) ∧
    State.start hardware .zero .zero [0x25] [] [] = none := by
  decide

/-! ### The assembler (R75 to R90; 95 sections 1.3, 1.4 and part 3) -/

/-- The object program of a source text: where it begins and its bytes. -/
def object (text : String) : Option (Word × List Byte) :=
  (assembleText text.toList).toOption.map (fun p => (p.origin, p.bytes))

theorem test_there_are_64_mnemonics : mnemonics.length = 64 := by decide

theorem test_assemble_ascii : object ".ASCII \"Chaine\"\n.END" = some (0, [0x43, 0x68, 0x61, 0x69, 0x6E, 0x65]) := by decide

/-- Pieces of P4 and P5 of part 3, moved to the front. -/
theorem test_assemble_statements :
    object "BR main ; jump\nvec: .WORD -2\nmsg: .ASCII \"ow\\x00\"\nmain: addx vec,X\ntbl: .ADDRSS main\n.END" =
      some (0, [0x04, 0x00, 0x08, 0xFF, 0xFE, 0x6F, 0x77, 0x00, 0x7D, 0x00, 0x03, 0x00, 0x08]) := by
  decide

/-- R88: only what follows `.BURN` is emitted, its last byte at the operand's address. -/
theorem test_assemble_burn :
    object "v: .BLOCK 2\n.BURN 0xFFFF\nh: BR h\n.END" = some (0xFFFD, [0x04, 0xFF, 0xFD]) := by
  decide

/-- R76: also in front of `.BURN`. -/
theorem test_assemble_refuses_illegal_statements :
    object "STA 4,i\n.END" = none ∧ object "LDA 4\n.END" = none ∧
      object "STA 4,i\n.BURN 0xFFFF\nSTOP\n.END" = none ∧ object "LDA 70000,i\n.BURN 0xFFFF\nSTOP\n.END" = none := by
  decide

/-- R83, R86: a symbol of a later line, and an address as a number of bytes. -/
theorem test_assemble_symbols_in_any_order :
    object "n: .EQUATE m\nm: .EQUATE k\n.BLOCK n\nk: .BLOCK k\n.BYTE n\nm2: .EQUATE m2\n.END" = none ∧
      object "n: .EQUATE 2\n.BLOCK n\nk: .BYTE e\ne: .EQUATE k\n.BLOCK k\n.END" = some (0, [0, 0, 2, 0, 0]) := by
  decide

theorem test_ascii_rows :
    asciiRow 0x0A = some (.control "LF") ∧ asciiRow 0x41 = some (.printable 'A') ∧ asciiRow 0x7F = some (.control "DEL") ∧
    asciiCode '0' = some 0x30 := by
  decide

/-! ### Witnesses: the hypotheses of the obligations can be met -/

/-- Parameters with ROM from `start` on, faulting on stores. -/
def romFrom (start : Fin 65537) : Params := { defaultParams with romStart := start, romWrite := .fault }

theorem witness_StepRunsDecodedInstruction :
    let s := { program [0xC0, 0x12, 0x34] with pc := 0x0000 }
    s.halted = false ∧ s.fault = none ∧ decode s.fetchBytes = .ok (.ldr .a .i 0x1234, []) :=
  ⟨rfl, rfl, rfl⟩

theorem witness_StepRunsDecodedInstruction_at_the_top :
    let s := { storing State.reset 0xFFFF [0x5F] with pc := 0xFFFF }
    s.halted = false ∧ s.fault = none ∧ decode s.fetchBytes = .ok (.retn 7, [0x00, 0x00]) :=
  ⟨rfl, rfl, rfl⟩

theorem witness_EndedRunStaysAsItIs_ended :
    ({ State.reset with halted := true } : State).halted = true ∧
    ({ State.reset with fault := some .inputExhausted } : State).fault ≠ none ∧
    ({ State.reset with halted := true } : State).fault = none := by
  decide

theorem witness_EndedRunStaysAsItIs_faults :
    (program [0xE0, 0x00, 0x10]).fault = none ∧
    step (program [0xE0, 0x00, 0x10]) = .fault (.illegalAddressingMode 0xE0) :=
  ⟨rfl, rfl⟩

theorem witness_CallPushesTheReturnAddress :
    CanStore State.reset (State.reset.sp - 2) ∧ CanStore State.reset (State.reset.sp - 2 + 1) :=
  ⟨.inl rfl, .inl rfl⟩

/-- With ROM that faults on stores, and the word just below it. -/
theorem witness_CallPushesTheReturnAddress_below_rom :
    let s := { State.reset with sp := 0xFC50, params := romFrom ⟨0xFC50, by decide⟩ }
    CanStore s (s.sp - 2) ∧ CanStore s (s.sp - 2 + 1) :=
  ⟨.inr (by unfold InRom; decide), .inr (by unfold InRom; decide)⟩

/-- The state a CALL leaves, as data. -/
def called : State := { storing State.reset 0xFBCD [0x00, 0x06] with sp := 0xFBCD, pc := 0x0010 }

theorem witness_RetnReturnsBehindTheCall :
    let s := { State.reset with pc := 0x0006 }
    let u := { called with sp := 0xFBC6 }
    ¬ InRom s (s.sp - 2) ∧ ¬ InRom s (s.sp - 2 + 1) ∧ exec (.call .i 0x0010) s = .next called ∧
      u.sp = called.sp - BitVec.ofNat 16 (7#3).toNat ∧ u.read2 called.sp = called.read2 called.sp :=
  ⟨by unfold InRom; decide, by unfold InRom; decide, rfl, by decide, rfl⟩

theorem witness_RotatesAreUndone :
    exec (.rolr .a) { State.reset with a := 0x8000 } = .next { State.reset with c := true } ∧
    exec (.rorr .x) { State.reset with x := 0x0001 } = .next { State.reset with c := true } :=
  ⟨rfl, rfl⟩

theorem witness_TrapNopsDoNothing : State.reset.params.trapModel = .service ∧ Mode.d ≠ .i := by decide

theorem witness_DeciStoresTheNumeral_stores :
    let s := { State.reset with input := [0x2D, 0x33, 0x32, 0x37, 0x36, 0x39, 0x0A, 0x37] }
    s.params.trapModel = .service ∧ effectiveAddress .d 0xFFFF s = some 0xFFFF ∧
      readDecimal s.input = .numeral (-32769) [0x37] ∧ CanStore s 0xFFFF ∧ CanStore s (0xFFFF + 1) :=
  ⟨rfl, rfl, by decide, .inl rfl, .inl rfl⟩

theorem witness_DeciStoresTheNumeral_invalid :
    let s := { State.reset with input := [0x2D, 0x78] }
    s.params.trapModel = .service ∧ Mode.sxf ≠ .i ∧ readDecimal s.input = .invalid 0x78 := by
  decide

theorem witness_DeciStoresTheNumeral_exhausted :
    let s := { State.reset with input := [0x31, 0x32] }
    s.params.trapModel = .service ∧ Mode.d ≠ .i ∧ readDecimal s.input = .exhausted ∧ s.params.inputEof = .fault := by
  decide

theorem witness_NumeralIsRead :
    AllBlank [0x20, 0x0A] ∧ [0x30, 0x39] ≠ ([] : List Byte) ∧ AllDigits [0x30, 0x39] ∧ NotDigit 0x2F ∧ NotDigit 0x3A ∧
      readDecimal ([0x20, 0x0A] ++ signBytes .minus ++ [0x30, 0x39] ++ 0x2F :: [0x35]) = .numeral (-9) [0x35] := by
  unfold AllBlank AllDigits NotDigit
  decide

theorem witness_NumeralIsNotRead_no_digit :
    AllBlank [0x20] ∧ NotDigit 0x2F ∧ (0x2F : Byte) ≠ 0x20 ∧ (0x2F : Byte) ≠ 0x0A ∧ (0x2F : Byte) ≠ 0x2B ∧
      (0x2F : Byte) ≠ 0x2D := by
  unfold AllBlank NotDigit
  decide

theorem witness_NumeralIsNotRead_sign_and_end :
    AllBlank [] ∧ Sign.minus ≠ .none ∧ NotDigit 0x3A ∧ AllDigits [] ∧ AllDigits [0x39] := by
  unfold AllBlank NotDigit AllDigits
  decide

theorem witness_DecoOutputsTheNumeral : State.reset.params.trapModel = .service := rfl

theorem witness_DecimalTextIsShortest : FitsSigned (-32768) ∧ FitsSigned 0 ∧ FitsSigned 32767 := by
  unfold FitsSigned
  decide

theorem witness_DeciReadsWhatDecoWrites : NotDigit 0x2F ∧ NotDigit 0x3A := by
  unfold NotDigit
  decide

/-- A memory in which the addresses from `start` on, `count` of them, hold `b`. -/
def filled (b : Byte) (start count : Nat) : Memory := (List.range' start count).map (fun k => (k, b))

theorem read_filled (b : Byte) (count start a : Nat) :
    (filled b start count).read a = if start ≤ a ∧ a < start + count then b else unlistedByte := by
  induction count generalizing start with
  | zero => rw [if_neg (by omega)]; rfl
  | succ count ih =>
    rw [show filled b start (count + 1) = (start, b) :: filled b (start + 1) count by
      simp [filled, List.range'_succ], Memory.read_cons, ih]
    by_cases h : start = a
    · rw [if_pos h, if_pos (by omega)]
    · by_cases h' : start + 1 ≤ a ∧ a < start + 1 + count
      · rw [if_neg h, if_pos h', if_pos (by omega)]
      · rw [if_neg h, if_neg h', if_neg (by omega)]

/-- The longest string of the statement: 65535 bytes and its 0x00 at the top of memory. -/
theorem witness_StroOutputsTheString_longest :
    let s := { State.reset with mem := filled 0x41 0 65535 }
    s.params.trapModel = .service ∧ effectiveAddress .d 0 s = some 0 ∧
      (∀ k, k < 65535 → s.read1 (0 + BitVec.ofNat 16 k) ≠ 0) ∧ s.read1 (0 + BitVec.ofNat 16 65535) = 0 := by
  refine ⟨rfl, rfl, fun k hk => ?_, ?_⟩
  · show (filled 0x41 0 65535).read (0 + BitVec.ofNat 16 k).toNat ≠ 0
    rw [read_filled, if_pos (by bv_omega)]
    decide
  · show (filled 0x41 0 65535).read 65535 = 0
    rw [read_filled, if_neg (by omega)]
    rfl

theorem witness_StroOutputsTheString_empty :
    State.reset.params.trapModel = .service ∧ effectiveAddress .sf 0 State.reset = some 0 ∧
      State.reset.read1 (0 + BitVec.ofNat 16 0) = 0 :=
  ⟨rfl, rfl, rfl⟩

theorem witness_StroOutputsTheString_unterminated :
    let s := { State.reset with mem := filled 0x41 0 65536 }
    s.params.trapModel = .service ∧ ∀ a, s.read1 a ≠ 0 := by
  refine ⟨rfl, fun a => ?_⟩
  show (filled 0x41 0 65536).read a.toNat ≠ 0
  rw [read_filled, if_pos (by omega)]
  decide

theorem witness_StroOutputsTheString_illegal_mode :
    State.reset.params.trapModel = .service ∧ ¬ (Mode.s = .d ∨ Mode.s = .n ∨ Mode.s = .sf) := by
  decide

/-- A machine about to trap: the frame is at 0x00F6 to 0x00FF, the handler at 0x0080 (95 section 2.15). -/
def trapping : State :=
  { storing (storing State.reset 0xFFFA [0x01, 0x00]) 0xFFFE [0x00, 0x80] with pc := 0x0004, ir := 0x25, params := hardware }

theorem witness_TrapEntryBuildsTheFrame :
    IsTrap (.nopn 1) ∧ IsTrap (.stro .sxf 0) ∧ trapping.params.trapModel = .hardware ∧
      ∀ k, k < 10 → CanStore trapping (trapping.read2 0xFFFA - 10 + BitVec.ofNat 16 k) :=
  ⟨by unfold IsTrap; decide, by unfold IsTrap; decide, rfl, fun _ _ => .inl rfl⟩

theorem witness_TrapReturnUndoesTrapEntry :
    IsTrap (.nopn 1) ∧ trapping.params.trapModel = .hardware ∧
      (∀ k, k < 10 → ¬ InRom trapping (trapping.read2 0xFFFA - 10 + BitVec.ofNat 16 k)) ∧
      exec (.nopn 1) trapping = .next
        { storing trapping 0x00F6 [0x00, 0x00, 0x00, 0x00, 0x00, 0x00, 0x04, 0xFB, 0xCF, 0x25] with
          sp := 0x00F6, pc := 0x0080 } := by
  refine ⟨by unfold IsTrap; decide, rfl, ?_, rfl⟩
  unfold InRom
  decide

theorem witness_ChariStoresTheInputByte :
    let s := { State.reset with input := [0x41, 0x42] }
    effectiveAddress .s 0xFFFF s = some 0xFBCE ∧ s.input = 0x41 :: [0x42] ∧ CanStore s 0xFBCE :=
  ⟨rfl, rfl, .inl rfl⟩

theorem witness_ChariStoresTheInputByte_empty :
    Mode.d ≠ .i ∧ State.reset.input = [] ∧ State.reset.params.inputEof = .fault := by
  decide

theorem witness_CharoOutputsTheByte : effectiveAddress .x 0xFFFF { State.reset with x := 2 } = some 0x0001 := rfl

theorem witness_OperandsByAddressingMode : effectiveAddress .sxf 0x0004 State.reset = some 0x0000 := rfl

theorem witness_WordStoreIsBigEndian :
    let s := { State.reset with params := romFrom ⟨0x8000, by decide⟩ }
    CanStore s 0x7FFE ∧ CanStore s (0x7FFE + 1) ∧ ¬ InRom s 0x7FFE ∧ ¬ InRom s (0x7FFE + 1) := by
  unfold CanStore InRom
  decide

/-- The first clauses at both bytes of a word at the start of ROM. -/
theorem witness_StoreToRomFaults :
    let s := { State.reset with sp := 0x8002, input := [0x37, 0x0A], params := romFrom ⟨0x8000, by decide⟩ }
    s.params.romWrite = .fault ∧ effectiveAddress .d 0x8000 s = some 0x8000 ∧ FirstRomByte s 0x8000 0x8000 ∧
      effectiveAddress .d 0x7FFF s = some 0x7FFF ∧ FirstRomByte s 0x7FFF 0x8000 ∧ InRom s 0x8000 ∧
      FirstRomByte s (s.sp - 2) 0x8000 ∧ FirstRomByte { s with sp := 0x8001 } (0x8001 - 2) 0x8000 ∧
      s.input = 0x37 :: [0x0A] ∧ s.params.trapModel = .service ∧ readDecimal s.input = .numeral 7 [] := by
  unfold FirstRomByte InRom
  decide

/-- The clause of trap entry: the frame is at 0x00F6 to 0x00FF, and ROM begins at its last byte, or at 0x00FE. -/
theorem witness_StoreToRomFaults_trap_entry :
    let rom (k : Fin 65537) : State := { trapping with params := { hardware with romStart := k, romWrite := .fault } }
    let s := rom ⟨0x00FF, by decide⟩
    let t := { rom ⟨0x0100, by decide⟩ with mem := (storing State.reset 0xFFFA [0x01, 0x01]).mem }
    IsTrap (.nopn 1) ∧ s.params.trapModel = .hardware ∧ frameStores s = [] ++ 0x00FF :: (frameStores s).tail ∧
      InRom s 0x00FF ∧ frameStores t = [] ++ 0x0100 :: (frameStores t).tail ∧ InRom t 0x0100 := by
  unfold IsTrap InRom
  decide

theorem witness_AddspAddsToSp : (0x0004 : Word) = operand16 .i 0x0004 State.reset := rfl

theorem witness_SubspSubtractsFromSp : (0x0004 : Word) = operand16 .i 0x0004 State.reset := rfl

theorem witness_AddrAddsToTheRegister :
    (0x0000 : Word) = State.reset.reg .x ∧ (0x8000 : Word) = operand16 .i 0x8000 State.reset :=
  ⟨rfl, rfl⟩

theorem witness_SubrSubtractsFromTheRegister :
    (0x0000 : Word) = State.reset.reg .a ∧ (0x8000 : Word) = operand16 .i 0x8000 State.reset :=
  ⟨rfl, rfl⟩

theorem witness_CprComparesTheRegister : (0x0000 : Word) = operand16 .d 0x0004 State.reset := rfl

theorem witness_AndrOrrCombineBits : (0xFFFF : Word) = operand16 .i 0xFFFF State.reset := rfl

theorem witness_Sub16FollowsTheTable : (0x7FFF : Word) ≠ 0 ∧ (0x7FFF : Word) ≠ 0x8000 := by decide

theorem witness_LdrLoadsTheWord : (0xFFFF : Word) = operand16 .i 0xFFFF State.reset := rfl

theorem witness_StrStoresTheWord :
    let s := { State.reset with params := romFrom ⟨0x8000, by decide⟩ }
    effectiveAddress .d 0x7FFE s = some 0x7FFE ∧ CanStore s 0x7FFE ∧ CanStore s (0x7FFE + 1) := by
  unfold CanStore InRom
  decide

theorem witness_StbyterStoresTheLowByte :
    let s := { State.reset with params := romFrom ⟨0x8000, by decide⟩ }
    effectiveAddress .d 0x7FFF s = some 0x7FFF ∧ CanStore s 0x7FFF := by
  unfold CanStore InRom
  decide

theorem witness_IllegalModesFault :
    let s := program [0x29, 0x12, 0x34]
    s.halted = false ∧ s.fault = none ∧ s.read1 s.pc = 0x29 ∧ (0x29 : Byte) ∈ illegalSpecifiers ∧
      s.params.trapModel = .service := by
  decide

theorem witness_IllegalModesFault_hardware :
    let s := { program [0x48, 0x00, 0x10] with params := hardware }
    s.halted = false ∧ s.fault = none ∧ s.read1 s.pc = 0x48 ∧ (0x48 : Byte) ∈ illegalSpecifiers ∧
      0x48 ≤ (0x48 : Byte).toNat := by
  decide

theorem witness_EncodeOfDecodeIsTheBytes : decode [0xFF, 0x12, 0x34, 0x00] = .ok (.stbyter .x .sxf 0x1234, [0x00]) := rfl

theorem witness_StepKeepsMemoryCanonical :
    Inv (program [0x02]) ∧ step (program [0x02]) = .next { program [0x02] with pc := 1, ir := 0x02, a := 0xFBCF } :=
  ⟨rfl, rfl⟩

/-- A store to ROM that is ignored. -/
theorem witness_RomKeepsItsBytes :
    let s := { program [0xE1, 0xFF, 0xFF] with a := 0x1234, params := { defaultParams with romStart := ⟨0xFFFF, by decide⟩ } }
    InRom s 0xFFFF ∧ ∃ t, step s = .next t ∧ t.read1 0xFFFF = 0x00 ∧ t.read1 0x0000 = 0x34 :=
  ⟨by unfold InRom; decide, _, rfl, rfl, rfl⟩

theorem witness_StreamsOnlyAdvance : ∃ t, step (program [0x50, 0x12, 0x41]) = .next t ∧ t.output = [0x41] := ⟨_, rfl, rfl⟩

theorem witness_SpWrittenOnlyByItsInstructions :
    writesSp (.nopn 1) = false ∧ IsTrap (.nopn 1) ∧ State.reset.params.trapModel = .service ∧
      exec (.nopn 1) State.reset = .next State.reset :=
  ⟨rfl, by unfold IsTrap; decide, rfl, rfl⟩

theorem witness_FlagsWrittenOnlyByTheirInstructions :
    flagsWritten .movspa = (false, false, false, false) ∧
      exec .movspa State.reset = .next { State.reset with a := 0xFBCF } :=
  ⟨rfl, rfl⟩

theorem witness_MemoryWrittenOnlyByItsInstructions :
    writesMemory .movspa = false ∧ ¬ IsTrap .movspa ∧ exec .movspa State.reset = .next { State.reset with a := 0xFBCF } :=
  ⟨rfl, by unfold IsTrap; decide, rfl⟩

theorem witness_DirectStartLoadsTheProgram :
    defaultParams.trapModel = .service ∧ (List.replicate 65536 (0x24 : Byte)).length ≤ 65536 ∧
      ([] : List Byte).length ≤ 65536 := by
  rw [List.length_replicate]
  decide

theorem witness_DirectivesEmitTheirBytes :
    (Instr.retn 7).wellFormed = true ∧ operandSpecifierOf (.retn 7) = none ∧ (-128 : Int) ≤ -128 ∧ (-128 : Int) ≤ 255 ∧
      (-32768 : Int) ≤ 65535 ∧ (65535 : Int) ≤ 65535 ∧ 64999 + [(0x41 : Byte)].length ≤ 65000 := by
  decide

theorem witness_BurnedCodeEndsAtItsAddress :
    (∀ st ∈ [(⟨none, .block (.decimal 2)⟩ : Statement)], st.body.isBurn = false) ∧
    assemble ([⟨none, .block (.decimal 2)⟩] ++
        ⟨none, .burn (.decimal 65535)⟩ :: [⟨none, .unary .stop⟩, ⟨none, .finish⟩]) =
      .ok { origin := 0xFFFF, bytes := [0x00] } := by
  refine ⟨?_, rfl⟩
  intro st h
  rw [List.mem_singleton.mp h]
  rfl

theorem witness_BurnedCodeEndsAtItsAddress_symbols :
    validSymbol ['h'] = true ∧ validSymbol ['c'] = true ∧ ['h'] ≠ ['c'] ∧ (65535 : Nat) ≤ 65535 ∧ 3 ≤ 3 ∧ (3 : Nat) ≤ 65535 ∧
      (-32768 : Int) ≤ -32768 ∧ (-32768 : Int) ≤ 65535 ∧ (0x0000 : Word) = BitVec.ofNat 16 (3 - 3) := by
  decide

theorem witness_AsciiCodesAreTheCharacters :
    32 ≤ (0x20 : Byte).toNat ∧ (0x7E : Byte).toNat < 127 ∧ 128 ≤ (0x80 : Byte).toNat := by
  decide

end Sys2Proof.Tests
end

/-! PROOFS, scope. No step changes a parameter, takes input but from the front, or writes output but at the back
(spec/00_scope.md R4, spec/10_state.md R17, R18). -/

namespace Sys2Proof.Proofs

open Sys2Proof.Machine

/-! ### What a step is -/

/-- A step with a next state is the execution of the fetched instruction on a machine that has not ended (R19, R54). -/
theorem step_eq_next {s t : State} (h : step s = .next t) :
    s.fault = none ∧ s.halted = false ∧ exec s.fetchInstr s.fetched = .next t := by
  unfold step cycle at h
  cases hf : s.fault with
  | some f => rw [hf] at h; exact nomatch h
  | none =>
    rw [hf] at h
    cases hh : s.halted with
    | true => rw [hh] at h; exact nomatch h
    | false => rw [hh] at h; exact ⟨rfl, rfl, h⟩

/-! ### The relation between the state before and the state after -/

/-- The parameters are kept, `In` has lost bytes at its front only, `Out` has gained bytes at its back only. -/
structure StreamsAdvance (s t : State) : Prop where
  params : t.params = s.params
  input : t.input <:+ s.input
  output : s.output <+: t.output

theorem StreamsAdvance.trans {s t u : State} (h : StreamsAdvance s t) (h' : StreamsAdvance t u) :
    StreamsAdvance s u :=
  ⟨h'.params.trans h.params, h'.input.trans h.input, h.output.trans h'.output⟩

/-- A state that differs outside the parameters and the streams. -/
theorem StreamsAdvance.of_eq {s t : State} (hp : t.params = s.params) (hi : t.input = s.input)
    (ho : t.output = s.output) : StreamsAdvance s t :=
  ⟨hp, hi ▸ List.suffix_rfl, ho ▸ List.prefix_rfl⟩

/-- `StreamsAdvance.of_eq` for an outcome that is known by its state. -/
theorem StreamsAdvance.of_next {s t u : State} (h : (.next u : Result) = .next t) (hp : u.params = s.params)
    (hi : u.input = s.input) (ho : u.output = s.output) : StreamsAdvance s t := by
  cases h
  exact .of_eq hp hi ho

theorem StreamsAdvance.fetched (s : State) : StreamsAdvance s s.fetched := .of_eq (by simp) (by simp) (by simp)

theorem StreamsAdvance.outPut (s : State) (bs : List Byte) : StreamsAdvance s (s.outPut bs) :=
  ⟨rfl, List.suffix_rfl, List.prefix_append _ _⟩

/-! ### The shared operations -/

theorem streamsAdvance_of_write1 {s t : State} {a : Word} {v : Byte} (h : s.write1 a v = .ok t) :
    StreamsAdvance s t := by
  rw [State.write1_frame h]
  exact .of_eq rfl rfl rfl

theorem streamsAdvance_of_write2 {s t : State} {a w : Word} (h : s.write2 a w = .ok t) : StreamsAdvance s t := by
  rw [State.write2_frame h]
  exact .of_eq rfl rfl rfl

theorem streamsAdvance_of_inPop {s t : State} {b : Byte} (h : s.inPop = .ok (b, t)) : StreamsAdvance s t := by
  obtain ⟨rest, hs, rfl⟩ := State.inPop_eq_ok h
  exact ⟨rfl, hs ▸ List.suffix_cons b rest, List.prefix_rfl⟩

/-- Trap entry stores its frame and writes SP and PC (R203). -/
theorem streamsAdvance_of_takeTrap {s t : State} (h : takeTrap s = .ok t) : StreamsAdvance s t := by
  obtain ⟨s1, s2, s3, s4, s5, s6, h1, h2, h3, h4, h5, h6, rfl⟩ := takeTrap_eq_ok h
  have frame : StreamsAdvance s s6 :=
    (streamsAdvance_of_write1 h1).trans <| (streamsAdvance_of_write2 h2).trans <|
      (streamsAdvance_of_write2 h3).trans <| (streamsAdvance_of_write2 h4).trans <|
      (streamsAdvance_of_write2 h5).trans (streamsAdvance_of_write1 h6)
  exact ⟨frame.params, frame.input, frame.output⟩

/-- A trap instruction advances the streams if its service does: trap entry leaves them alone (R129). -/
theorem streamsAdvance_of_dispatchTrap {s t : State} {service : Except Stop State}
    (h : dispatchTrap s service = .next t) (hs : service = .ok t → StreamsAdvance s t) : StreamsAdvance s t := by
  rcases dispatchTrap_eq_next h with ⟨-, hservice⟩ | ⟨-, htrap⟩
  · exact hs hservice
  · exact streamsAdvance_of_takeTrap htrap

/-! ### Numerals leave a tail of the input (R135) -/

theorem readDigits_suffix {neg : Bool} {mag : Nat} {bytes rest : List Byte} {value : Int}
    (h : readDigits neg mag bytes = .numeral value rest) : rest <:+ bytes := by
  induction bytes generalizing mag with
  | nil => exact nomatch h
  | cons c tail ih =>
    unfold readDigits at h
    split at h
    · exact (ih h).trans (List.suffix_cons c tail)
    · cases h
      exact List.suffix_cons c rest

theorem readAfterSign_suffix {neg : Bool} {bytes rest : List Byte} {value : Int}
    (h : readAfterSign neg bytes = .numeral value rest) : rest <:+ bytes := by
  cases bytes with
  | nil => exact nomatch h
  | cons c tail =>
    unfold readAfterSign at h
    dsimp only at h
    split at h
    · exact (readDigits_suffix h).trans (List.suffix_cons c tail)
    · exact nomatch h

theorem readDecimal_suffix {bytes rest : List Byte} {value : Int} (h : readDecimal bytes = .numeral value rest) :
    rest <:+ bytes := by
  induction bytes with
  | nil => exact nomatch h
  | cons c tail ih =>
    refine List.IsSuffix.trans ?_ (List.suffix_cons c tail)
    unfold readDecimal at h
    split_ifs at h with hblank hplus hminus hdigit
    · exact ih h
    · exact readAfterSign_suffix h
    · exact readAfterSign_suffix h
    · exact readDigits_suffix h

theorem streamsAdvance_of_popDecimal {s t : State} {value : Int} (h : s.popDecimal = .ok (value, t)) :
    StreamsAdvance s t := by
  unfold State.popDecimal at h
  split at h
  case h_1 hread =>
    cases h
    exact ⟨rfl, readDecimal_suffix hread, List.prefix_rfl⟩
  all_goals exact nomatch h

/-! ### The instructions that branch, store, or read or write a stream -/

theorem streamsAdvance_of_branchIf {taken : Bool} {a : BranchMode} {w : Word} {s t : State}
    (h : branchIf taken a w s = .next t) : StreamsAdvance s t := by
  cases taken with
  | true => exact .of_next h rfl rfl rfl
  | false => exact .of_next h rfl rfl rfl

theorem streamsAdvance_of_execCall {a : BranchMode} {w : Word} {s t : State} (h : execCall a w s = .next t) :
    StreamsAdvance s t := by
  obtain ⟨pushed, hpush, ht⟩ := bind_eq_ok (finish_eq_next h)
  obtain ⟨hp, hi, ho⟩ := streamsAdvance_of_write2 hpush
  cases ht
  exact ⟨hp, hi, ho⟩

theorem streamsAdvance_of_execStr {r : Reg} {m : Mode} {w : Word} {s t : State} (h : execStr r m w s = .next t) :
    StreamsAdvance s t := by
  obtain ⟨ea, -, hstore⟩ := bind_eq_ok (finish_eq_next h)
  exact streamsAdvance_of_write2 hstore

theorem streamsAdvance_of_execStbyter {r : Reg} {m : Mode} {w : Word} {s t : State}
    (h : execStbyter r m w s = .next t) : StreamsAdvance s t := by
  obtain ⟨ea, -, hstore⟩ := bind_eq_ok (finish_eq_next h)
  exact streamsAdvance_of_write1 hstore

theorem streamsAdvance_of_execChari {m : Mode} {w : Word} {s t : State} (h : execChari m w s = .next t) :
    StreamsAdvance s t := by
  obtain ⟨ea, -, h⟩ := bind_eq_ok (finish_eq_next h)
  obtain ⟨⟨c, popped⟩, hpop, hstore⟩ := bind_eq_ok h
  exact (streamsAdvance_of_inPop hpop).trans (streamsAdvance_of_write1 hstore)

theorem streamsAdvance_of_execCharo {m : Mode} {w : Word} {s t : State} (h : execCharo m w s = .next t) :
    StreamsAdvance s t := by
  cases h
  exact .outPut s _

theorem streamsAdvance_of_execNopn {nn : BitVec 2} {s t : State} (h : execNopn nn s = .next t) :
    StreamsAdvance s t := by
  refine streamsAdvance_of_dispatchTrap h fun hs => ?_
  cases hs
  exact .of_eq rfl rfl rfl

theorem streamsAdvance_of_execNop {m : Mode} {w : Word} {s t : State} (h : execNop m w s = .next t) :
    StreamsAdvance s t := by
  refine streamsAdvance_of_dispatchTrap h fun hs => ?_
  obtain ⟨_, -, ht⟩ := bind_eq_ok hs
  cases ht
  exact .of_eq rfl rfl rfl

theorem streamsAdvance_of_execDeci {m : Mode} {w : Word} {s t : State} (h : execDeci m w s = .next t) :
    StreamsAdvance s t := by
  refine streamsAdvance_of_dispatchTrap h fun hs => ?_
  obtain ⟨ea, -, hs⟩ := bind_eq_ok hs
  obtain ⟨⟨value, popped⟩, hpop, hs⟩ := bind_eq_ok hs
  obtain ⟨stored, hstore, ht⟩ := bind_eq_ok hs
  obtain ⟨hp, hi, ho⟩ := (streamsAdvance_of_popDecimal hpop).trans (streamsAdvance_of_write2 hstore)
  cases ht
  exact ⟨hp, hi, ho⟩

theorem streamsAdvance_of_execDeco {m : Mode} {w : Word} {s t : State} (h : execDeco m w s = .next t) :
    StreamsAdvance s t := by
  refine streamsAdvance_of_dispatchTrap h fun hs => ?_
  cases hs
  exact .outPut s _

theorem streamsAdvance_of_execStro {m : Mode} {w : Word} {s t : State} (h : execStro m w s = .next t) :
    StreamsAdvance s t := by
  refine streamsAdvance_of_dispatchTrap h fun hs => ?_
  obtain ⟨ea, -, hs⟩ := bind_eq_ok hs
  cases hstring : stringAt s ea 65536 with
  | none => rw [hstring] at hs; exact nomatch hs
  | some bytes =>
    rw [hstring] at hs
    cases hs
    exact .outPut s bytes

/-! ### Every instruction, every step -/

/-- What each instruction does to the parameters and the streams: those that only write registers leave them alone, the
others are the lemmas above. -/
theorem exec_streamsAdvance {i : Instr} {s t : State} (h : exec i s = .next t) : StreamsAdvance s t := by
  cases i with
  | stop | rettr | movspa | movflga => exact .of_next h rfl rfl rfl
  | retn | addsp | subsp | cpr => exact .of_next h rfl rfl rfl
  | notr | negr | aslr | asrr | rolr | rorr => exact .of_next h (by simp) (by simp) (by simp)
  | addr | subr | andr | orr | ldr | ldbyter => exact .of_next h (by simp) (by simp) (by simp)
  | br | brle | brlt | breq | brne | brge | brgt | brv | brc => exact streamsAdvance_of_branchIf h
  | call => exact streamsAdvance_of_execCall h
  | nopn nn => exact streamsAdvance_of_execNopn (nn := nn) h
  | nop m w => exact streamsAdvance_of_execNop (w := w) h
  | deci => exact streamsAdvance_of_execDeci h
  | deco => exact streamsAdvance_of_execDeco h
  | stro => exact streamsAdvance_of_execStro h
  | chari => exact streamsAdvance_of_execChari h
  | charo => exact streamsAdvance_of_execCharo h
  | str => exact streamsAdvance_of_execStr h
  | stbyter => exact streamsAdvance_of_execStbyter h

/-- Settles O53: the fetch leaves the parameters and the streams alone, and every instruction advances them. -/
theorem streamsOnlyAdvance : Obligations.StreamsOnlyAdvance := by
  intro s t h
  obtain ⟨-, -, hexec⟩ := step_eq_next h
  obtain ⟨hparams, ⟨consumed, hin⟩, added, hout⟩ := (StreamsAdvance.fetched s).trans (exec_streamsAdvance hexec)
  exact ⟨hparams, ⟨consumed, hin.symm⟩, added, hout.symm⟩

end Sys2Proof.Proofs

/-! PROOFS, scope. The decoder and the encoder are inverse (spec/30_encoding.md R50 to R55), and every decoded
specifier lies in its row of the opcode table. -/

namespace Sys2Proof.Proofs

open Sys2Proof.Claims

/-! ### The fields of a byte (R53) -/

/-- Two fields that make up a bit vector: the upper one by its number, the lower one by its bits. -/
theorem append_eq_of_fields {n k : Nat} {b : BitVec (n + k)} {op : BitVec n} {f : BitVec k}
    (hop : (b.extractLsb' k n).toNat = op.toNat) (hf : f = b.extractLsb' 0 k) : op ++ f = b := by
  rw [← BitVec.eq_of_toNat_eq hop, hf]
  refine BitVec.eq_of_getLsbD_eq fun i hi => ?_
  rw [BitVec.getLsbD_append]
  by_cases h : i < k
  · simp [h]
  · simp [h, show i - k < n by omega, show k + (i - k) = i by omega]

/-- The number in the upper bits of a byte. -/
theorem toNat_upperField (b : Byte) {k n : Nat} (h : k + n = 8) :
    (b.extractLsb' k n).toNat = b.toNat / 2 ^ k := by
  have hlt : b.toNat / 2 ^ k < 2 ^ n := by
    rw [Nat.div_lt_iff_lt_mul (Nat.two_pow_pos k), ← Nat.pow_add, Nat.add_comm n, h]
    exact b.isLt
  rw [BitVec.extractLsb'_toNat, Nat.shiftRight_eq_div_pow, Nat.mod_eq_of_lt hlt]

@[simp] theorem field_modeOfField (f : BitVec 3) : (modeOfField f).field = f := by revert f; decide

theorem field_regOfBit {n : Nat} (b : BitVec n) (i : Nat) : (regOfBit (b.getLsbD i)).field = b.extractLsb' i 1 := by
  refine BitVec.eq_of_getLsbD_eq fun j hj => ?_
  obtain rfl : j = 0 := by omega
  cases h : b.getLsbD i <;> simp [h, regOfBit, Reg.field]

theorem field_branchModeOfBit {n : Nat} (b : BitVec n) (i : Nat) :
    (branchModeOfBit (b.getLsbD i)).field = b.extractLsb' i 1 := by
  refine BitVec.eq_of_getLsbD_eq fun j hj => ?_
  obtain rfl : j = 0 := by omega
  cases h : b.getLsbD i <;> simp [h, branchModeOfBit, BranchMode.field]

/-- The three fields of the specifiers 0x70 to 0xFF make up the byte. -/
theorem registerFields_eq {b : Byte} {op : BitVec 4} (hop : (b.extractLsb' 4 4).toNat = op.toNat) :
    op ++ (regOfBit (b.getLsbD 3)).field ++ (modeOfField (b.extractLsb' 0 3)).field = b := by
  rw [field_regOfBit, field_modeOfField, BitVec.append_assoc]
  have hlower : b.extractLsb' 3 1 ++ b.extractLsb' 0 3 = b.extractLsb' 0 4 :=
    BitVec.extractLsb'_append_extractLsb'_eq_extractLsb' rfl
  rw [hlower]
  exact append_eq_of_fields (n := 4) (k := 4) (b := b) hop rfl

/-! ### A decoded instruction has the specifier it was decoded from (R55) -/

theorem specifierOf_decodeRegisterRow {b : Byte} (w : Word) (h : 0x70 ≤ b.toNat) :
    specifierOf (decodeRegisterRow b w) = b := by
  have hop := toNat_upperField b (k := 4) (n := 4) rfl
  unfold decodeRegisterRow
  dsimp only
  split
  case h_9 =>
    have hlast : (b.extractLsb' 4 4).toNat = (0xF#4).toNat := by
      have := b.isLt
      simp only [BitVec.toNat_ofNat, imp_false] at *
      omega
    exact registerFields_eq hlast
  all_goals exact registerFields_eq ‹_›

theorem specifierOf_decodeModeRow {b : Byte} (w : Word) (h : 0x28 ≤ b.toNat) (h' : b.toNat < 0x70) :
    specifierOf (decodeModeRow b w) = b := by
  have hop := toNat_upperField b (k := 3) (n := 5) rfl
  unfold decodeModeRow
  dsimp only
  split
  case h_7 hret => exact append_eq_of_fields (n := 5) (k := 3) (b := b) hret rfl
  case h_9 =>
    have hlast : (b.extractLsb' 3 5).toNat = (0b01101#5).toNat := by
      simp only [BitVec.toNat_ofNat, imp_false] at *
      omega
    exact append_eq_of_fields (n := 5) (k := 3) (b := b) hlast (field_modeOfField _)
  all_goals exact append_eq_of_fields (n := 5) (k := 3) (b := b) ‹_› (field_modeOfField _)

theorem specifierOf_nopn {b : Byte} (h : 0x24 ≤ b.toNat) (h' : b.toNat < 0x28) :
    specifierOf (.nopn (b.extractLsb' 0 2)) = b := by
  have hop := toNat_upperField b (k := 2) (n := 6) rfl
  have hrow : (b.extractLsb' 2 6).toNat = (0b001001#6).toNat := by
    simp only [BitVec.toNat_ofNat]
    omega
  exact append_eq_of_fields (n := 6) (k := 2) (b := b) hrow rfl

theorem specifierOf_decodeBitRow {b : Byte} (w : Word) (h : 0x04 ≤ b.toNat) (h' : b.toNat < 0x24) :
    specifierOf (decodeBitRow b w) = b := by
  have hop := toNat_upperField b (k := 1) (n := 7) rfl
  have hbranch : ∀ {op : BitVec 7}, (b.extractLsb' 1 7).toNat = op.toNat →
      op ++ (branchModeOfBit (b.getLsbD 0)).field = b := fun hop =>
    append_eq_of_fields (n := 7) (k := 1) (b := b) hop (field_branchModeOfBit b 0)
  have hreg : ∀ {op : BitVec 7}, (b.extractLsb' 1 7).toNat = op.toNat →
      op ++ (regOfBit (b.getLsbD 0)).field = b := fun hop =>
    append_eq_of_fields (n := 7) (k := 1) (b := b) hop (field_regOfBit b 0)
  unfold decodeBitRow
  dsimp only
  split
  case h_11 hnot => exact hreg hnot
  case h_12 hneg => exact hreg hneg
  case h_13 hasl => exact hreg hasl
  case h_14 hasr => exact hreg hasr
  case h_15 hrol => exact hreg hrol
  case h_16 =>
    have hror : (b.extractLsb' 1 7).toNat = (0b0010001#7).toNat := by
      simp only [BitVec.toNat_ofNat, imp_false] at *
      omega
    exact hreg hror
  all_goals exact hbranch ‹_›

theorem specifierOf_decodePlainRow {b : Byte} (h : b.toNat < 0x04) : specifierOf (decodePlainRow b) = b := by
  unfold decodePlainRow
  refine BitVec.eq_of_toNat_eq ?_
  split
  case h_4 =>
    show 3 = b.toNat
    simp only [imp_false] at *
    omega
  all_goals exact Eq.symm ‹_›

/-- Decoding by rows and filling in the source's bit patterns are inverse: the specifier comes back. -/
theorem specifierOf_decodeSpecifier (b : Byte) (w : Word) : specifierOf (decodeSpecifier b w) = b := by
  unfold decodeSpecifier
  simp only [BitVec.le_def, BitVec.toNat_ofNat, Nat.reducePow, Nat.reduceMod]
  split
  · next h => exact specifierOf_decodeRegisterRow w h
  split
  · next h => exact specifierOf_decodeModeRow w h (by omega)
  split
  · next h => exact specifierOf_nopn h (by omega)
  split
  · next h => exact specifierOf_decodeBitRow w h (by omega)
  · exact specifierOf_decodePlainRow (by omega)

/-! ### The operand specifier of a decoded instruction (R51, R52) -/

/-- Every operand specifier that a decoded instruction holds is the one given to the decoder. -/
theorem operandSpecifierOf_decodeSpecifier_eq {b : Byte} {w v : Word}
    (h : operandSpecifierOf (decodeSpecifier b w) = some v) : v = w := by
  unfold decodeSpecifier at h
  split_ifs at h
  · unfold decodeRegisterRow at h
    dsimp only at h
    split at h <;> exact (Option.some.inj h).symm
  · unfold decodeModeRow at h
    dsimp only at h
    split at h
    case h_7 => exact nomatch (show none = some v from h)
    all_goals exact (Option.some.inj h).symm
  · exact nomatch (show none = some v from h)
  · unfold decodeBitRow at h
    dsimp only at h
    split at h
    case h_11 | h_12 | h_13 | h_14 | h_15 | h_16 => exact nomatch (show none = some v from h)
    all_goals exact (Option.some.inj h).symm
  · unfold decodePlainRow at h
    split at h <;> exact nomatch (show none = some v from h)

/-- R51's predicate holds of exactly the specifiers of the instructions without an operand specifier. -/
theorem unarySpecifier_specifierOf (i : Instr) : unarySpecifier (specifierOf i) = (operandSpecifierOf i).isNone := by
  cases i with
  | stop | rettr | movspa | movflga => rfl
  | br a | brle a | brlt a | breq a | brne a | brge a | brgt a | brv a | brc a | call a => cases a <;> rfl
  | notr r | negr r | aslr r | asrr r | rolr r | rorr r => cases r <;> rfl
  | nopn f | retn f => revert f; decide
  | nop m | deci m | deco m | stro m | chari m | charo m | addsp m | subsp m => cases m <;> rfl
  | addr r m | subr r m | andr r m | orr r m | cpr r m | ldr r m | ldbyter r m | str r m | stbyter r m =>
    cases r <;> cases m <;> rfl

theorem operandSpecifierOf_decodeSpecifier (b : Byte) (w : Word) :
    operandSpecifierOf (decodeSpecifier b w) = if unarySpecifier b then none else some w := by
  have hunary := unarySpecifier_specifierOf (decodeSpecifier b w)
  rw [specifierOf_decodeSpecifier] at hunary
  cases h : operandSpecifierOf (decodeSpecifier b w) with
  | none => simp [hunary, h]
  | some v => simp [hunary, h, operandSpecifierOf_decodeSpecifier_eq h]

/-- The bytes of a decoded instruction: its specifier, and the operand specifier of a non-unary one. -/
theorem encode_decodeSpecifier (b : Byte) (w : Word) :
    encode (decodeSpecifier b w) = if unarySpecifier b then [b] else [b, hiByte w, loByte w] := by
  unfold encode
  rw [operandSpecifierOf_decodeSpecifier, specifierOf_decodeSpecifier]
  cases unarySpecifier b <;> rfl

/-! ### Decoding a list of bytes -/

/-- What decoding can answer: a unary specifier alone, or a specifier with the two bytes after it (R50 to R52). -/
theorem decode_eq_ok {bytes rest : List Byte} {i : Instr} (h : decode bytes = .ok (i, rest)) :
    (∃ b, unarySpecifier b = true ∧ bytes = b :: rest ∧ i = decodeSpecifier b 0) ∨
      ∃ b hi lo, unarySpecifier b = false ∧ bytes = b :: hi :: lo :: rest ∧ i = decodeSpecifier b (wordOf hi lo) := by
  cases bytes with
  | nil => exact nomatch h
  | cons b tail =>
    unfold decode at h
    dsimp only at h
    cases hb : unarySpecifier b with
    | true =>
      rw [if_pos hb] at h
      cases Except.ok.inj h
      exact .inl ⟨b, hb, rfl, rfl⟩
    | false =>
      rw [hb, if_neg Bool.false_ne_true] at h
      match tail, h with
      | hi :: lo :: tail', h =>
        cases Except.ok.inj h
        exact .inr ⟨b, hi, lo, hb, rfl, rfl⟩
      | [_], h => exact nomatch h
      | [], h => exact nomatch h

/-- Settles O46: the specifier and the operand specifier of a decoded instruction are the bytes it was decoded from. -/
theorem encodeOfDecodeIsTheBytes : Obligations.EncodeOfDecodeIsTheBytes := by
  intro bytes i rest h
  rcases decode_eq_ok h with ⟨b, hb, rfl, rfl⟩ | ⟨b, hi, lo, hb, rfl, rfl⟩ <;>
    simp [encode_decodeSpecifier, hb]

/-! ### The rows of the opcode table (R55) -/

/-- In a rising list, a number above one element and not above the next has all elements up to that one below it. -/
theorem length_filter_lt_of_between {l : List Nat} (hl : l.Pairwise (· < ·)) {k n : Nat} (hk : k + 1 < l.length)
    (hlo : l[k] < n) (hhi : n ≤ l[k + 1]) : (l.filter (fun x => decide (x < n))).length = k + 1 := by
  have hmono := hl.sortedLT.strictMono_get
  have hbefore : ∀ x ∈ l.take (k + 1), decide (x < n) = true := by
    intro x hx
    obtain ⟨j, hj, rfl⟩ := List.mem_take_iff_getElem.mp hx
    have : l[j] ≤ l[k] := hmono.monotone (a := ⟨j, by omega⟩) (b := ⟨k, by omega⟩) (show j ≤ k by omega)
    exact decide_eq_true (by omega)
  have hafter : ∀ x ∈ l.drop (k + 1), ¬ decide (x < n) = true := by
    intro x hx
    obtain ⟨j, hj, rfl⟩ := List.mem_drop_iff_getElem.mp hx
    have : l[k + 1] ≤ l[k + 1 + j] :=
      hmono.monotone (a := ⟨k + 1, hk⟩) (b := ⟨k + 1 + j, by omega⟩) (show k + 1 ≤ k + 1 + j by omega)
    simp only [decide_eq_true_eq]
    omega
  rw [← List.take_append_drop (k + 1) l, List.filter_append, List.filter_eq_self.mpr hbefore,
    List.filter_eq_nil_iff.mpr hafter, List.append_nil, List.length_take_of_le (by omega)]

/-- The numbers of the bit vectors with one upper field. -/
theorem toNat_append_bounds {n k : Nat} (op : BitVec n) (f : BitVec k) :
    op.toNat * 2 ^ k ≤ (op ++ f).toNat ∧ (op ++ f).toNat < (op.toNat + 1) * 2 ^ k := by
  have hf := f.isLt
  rw [BitVec.toNat_append, ← Nat.shiftLeft_add_eq_or_of_lt hf, Nat.shiftLeft_eq, Nat.succ_mul]
  omega

/-- The specifiers with a given upper field are counted in the row whose range holds all of them. -/
theorem count_of_upperField {n k row : Nat} {op : BitVec n} {f : BitVec k} (hrow : row + 1 < lastSpecifiers.length)
    (hlo : lastSpecifiers[row] < op.toNat * 2 ^ k) (hhi : (op.toNat + 1) * 2 ^ k ≤ lastSpecifiers[row + 1] + 1) :
    row + 1 = (lastSpecifiers.filter (fun last => decide (last < (op ++ f).toNat))).length := by
  obtain ⟨hge, hlt⟩ := toNat_append_bounds op f
  exact (length_filter_lt_of_between (by decide) hrow (by omega) (by omega)).symm

/-- As many rows end below an instruction's specifier as stand before its own row: the bit pattern of each row stays
inside the row's range, whatever the fields are. -/
theorem rowOf_eq_count (i : Instr) :
    rowOf i = (lastSpecifiers.filter (fun last => decide (last < (specifierOf i).toNat))).length := by
  cases i with
  | stop | rettr | movspa | movflga => rfl
  | br | brle | brlt | breq | brne | brge | brgt | brv | brc | call =>
    exact count_of_upperField (by decide) (by decide) (by decide)
  | notr | negr | aslr | asrr | rolr | rorr => exact count_of_upperField (by decide) (by decide) (by decide)
  | nopn | retn => exact count_of_upperField (by decide) (by decide) (by decide)
  | nop | deci | deco | stro | chari | charo | addsp | subsp =>
    exact count_of_upperField (by decide) (by decide) (by decide)
  | addr r | subr r | andr r | orr r | cpr r | ldr r | ldbyter r | str r | stbyter r =>
    cases r <;> exact count_of_upperField (by decide) (by decide) (by decide)

/-- Settles O47: a decoded instruction has the specifier it was decoded from, and that is in its row. -/
theorem everySpecifierSelectsItsRow : Obligations.EverySpecifierSelectsItsRow := by
  intro b w
  rw [rowOf_eq_count, specifierOf_decodeSpecifier]

end Sys2Proof.Proofs

/-! PROOFS, scope. A machine that has ended stays in its end state (spec/10_state.md R19, spec/30_encoding.md R54,
spec/60_exceptions.md R208), and the state after reset (R20). -/

namespace Sys2Proof.Proofs

open Sys2Proof.Machine

/-! ### The step of an ended machine -/

theorem step_of_faulted {s : State} {f : Fault} (h : s.fault = some f) : step s = .fault f := by
  unfold step cycle
  rw [h]

theorem step_of_halted {s : State} (hf : s.fault = none) (hh : s.halted = true) : step s = .refused .halted := by
  unfold step cycle
  rw [hf, hh]
  rfl

/-! ### Where a run stays -/

theorem advance_of_step_fault {s : State} {f : Fault} (h : step s = .fault f) : advance s = s.afterFault f := by
  unfold advance
  rw [h]

/-- A fault leaves a state in which the run stays: its step is the same fault, which writes `Fault` again (R208). -/
theorem advance_afterFault (s : State) (f : Fault) : advance (s.afterFault f) = s.afterFault f :=
  advance_of_step_fault (step_of_faulted (State.afterFault_fault s f))

theorem advance_of_halted {s : State} (hf : s.fault = none) (hh : s.halted = true) : advance s = s := by
  unfold advance
  rw [step_of_halted hf hh]

theorem runFor_of_advance_eq_self {s : State} (h : advance s = s) (k : Nat) : runFor k s = s := by
  induction k with
  | zero => rfl
  | succ k ih =>
    calc runFor (k + 1) s = runFor k (advance s) := rfl
      _ = runFor k s := by rw [h]
      _ = s := ih

/-- Settles O2: a step with a next state is one of a machine that has not ended, and both end states are fixed points of
`advance`. -/
theorem endedRunStaysAsItIs : Obligations.EndedRunStaysAsItIs := by
  refine ⟨?noStep, ?faults, ?halted⟩
  case noStep =>
    intro s t hended h
    obtain ⟨hfault, hrunning, -⟩ := step_eq_next h
    rcases hended with hhalted | hfaulted
    · exact nomatch hrunning.symm.trans hhalted
    · exact hfaulted hfault
  case faults =>
    intro s f k _ h
    calc runFor (k + 1) s = runFor k (advance s) := rfl
      _ = runFor k (s.afterFault f) := by rw [advance_of_step_fault h]
      _ = s.afterFault f := runFor_of_advance_eq_self (advance_afterFault s f) k
  case halted =>
    intro s k hh hf
    exact runFor_of_advance_eq_self (advance_of_halted hf hh) k

/-! ### Reset -/

/-- Settles O51: the fields of `State.reset`, in whose memory no byte is listed. -/
theorem resetHoldsTheStartValues : Obligations.ResetHoldsTheStartValues :=
  ⟨Memory.wf_nil, rfl, rfl, rfl, rfl, rfl, rfl, rfl, rfl, rfl, rfl, fun a => Memory.read_nil a.toNat, rfl, rfl, rfl,
    rfl, rfl⟩

end Sys2Proof.Proofs

/-! PROOFS, scope. What an instruction that completes keeps: the canonical form of memory (spec/10_state.md R16), SP
(R11) and the flags outside its set (R13). -/

namespace Sys2Proof.Proofs

open Sys2Proof.Machine Sys2Proof.Claims

/-! ### Operations that write memory and the streams only -/

/-- `t` is `s` but for memory, `In` and `Out`, and its memory is canonical if that of `s` is. -/
structure DataEffect (s t : State) : Prop where
  frame : t = { s with mem := t.mem, input := t.input, output := t.output }
  wf : s.mem.wf = true → t.mem.wf = true

theorem DataEffect.refl (s : State) : DataEffect s s := ⟨rfl, id⟩

theorem DataEffect.trans {s t u : State} (h : DataEffect s t) (h' : DataEffect t u) : DataEffect s u :=
  ⟨by rw [h'.frame, h.frame], h'.wf ∘ h.wf⟩

/-- `OutPut` of any bytes (R18). -/
theorem DataEffect.outPut (s : State) (bs : List Byte) : DataEffect s (s.outPut bs) := ⟨rfl, id⟩

theorem dataEffect_of_write1 {s t : State} {a : Word} {v : Byte} (h : s.write1 a v = .ok t) : DataEffect s t :=
  ⟨by rw [State.write1_frame h], State.write1_wf h⟩

theorem dataEffect_of_write2 {s t : State} {a w : Word} (h : s.write2 a w = .ok t) : DataEffect s t :=
  ⟨by rw [State.write2_frame h], State.write2_wf h⟩

theorem dataEffect_of_inPop {s t : State} {b : Byte} (h : s.inPop = .ok (b, t)) : DataEffect s t := by
  obtain ⟨rest, -, rfl⟩ := State.inPop_eq_ok h
  exact ⟨rfl, id⟩

/-- `ReadDecimal()` that completes has read a numeral and leaves the bytes behind it (R135). -/
theorem popDecimal_eq_ok {s t : State} {value : Int} (h : s.popDecimal = .ok (value, t)) :
    ∃ rest, readDecimal s.input = .numeral value rest ∧ t = { s with input := rest } := by
  unfold State.popDecimal at h
  cases hread : readDecimal s.input with
  | numeral value rest =>
    rw [hread] at h
    cases h
    exact ⟨rest, rfl, rfl⟩
  | invalid c => rw [hread] at h; exact nomatch h
  | exhausted => rw [hread] at h; exact nomatch h

theorem dataEffect_of_popDecimal {s t : State} {value : Int} (h : s.popDecimal = .ok (value, t)) :
    DataEffect s t := by
  obtain ⟨rest, -, rfl⟩ := popDecimal_eq_ok h
  exact ⟨rfl, id⟩

/-! ### The storing instructions and trap entry -/

theorem dataEffect_of_execStr {r : Reg} {m : Mode} {w : Word} {s t : State} (h : execStr r m w s = .next t) :
    DataEffect s t := by
  obtain ⟨ea, -, hstore⟩ := bind_eq_ok (finish_eq_next h)
  exact dataEffect_of_write2 hstore

theorem dataEffect_of_execStbyter {r : Reg} {m : Mode} {w : Word} {s t : State}
    (h : execStbyter r m w s = .next t) : DataEffect s t := by
  obtain ⟨ea, -, hstore⟩ := bind_eq_ok (finish_eq_next h)
  exact dataEffect_of_write1 hstore

theorem dataEffect_of_execChari {m : Mode} {w : Word} {s t : State} (h : execChari m w s = .next t) :
    DataEffect s t := by
  obtain ⟨ea, -, h⟩ := bind_eq_ok (finish_eq_next h)
  obtain ⟨⟨c, popped⟩, hpop, hstore⟩ := bind_eq_ok h
  exact (dataEffect_of_inPop hpop).trans (dataEffect_of_write1 hstore)

/-- CALL stores the return address in the state with the lowered SP, then jumps (R119). -/
theorem execCall_eq_next {a : BranchMode} {w : Word} {s t : State} (h : execCall a w s = .next t) :
    ∃ pushed, DataEffect { s with sp := s.sp - 2 } pushed ∧ t = { pushed with pc := branchTarget a w s } := by
  obtain ⟨pushed, hpush, ht⟩ := bind_eq_ok (finish_eq_next h)
  exact ⟨pushed, dataEffect_of_write2 hpush, (Except.ok.inj ht).symm⟩

/-- Trap entry stores its frame, then writes SP and PC (R203). -/
theorem takeTrap_dataEffect {s t : State} (h : takeTrap s = .ok t) :
    ∃ framed, DataEffect s framed ∧
      t = { framed with sp := s.read2 sysSpVector - 10, pc := framed.read2 trapPcVector } := by
  obtain ⟨s1, s2, s3, s4, s5, s6, h1, h2, h3, h4, h5, h6, rfl⟩ := takeTrap_eq_ok h
  have frame : DataEffect s s6 :=
    (dataEffect_of_write1 h1).trans <| (dataEffect_of_write2 h2).trans <| (dataEffect_of_write2 h3).trans <|
      (dataEffect_of_write2 h4).trans <| (dataEffect_of_write2 h5).trans (dataEffect_of_write1 h6)
  exact ⟨s6, frame, rfl⟩

/-! ### The services of the trap instructions (R129) -/

/-- A specifier whose upper field is that of a trap row lies in the range of the trap instructions (R200). -/
theorem trapRange_of_upperField {n k : Nat} (op : BitVec n) (f : BitVec k) (hlo : 0x24 ≤ op.toNat * 2 ^ k)
    (hhi : (op.toNat + 1) * 2 ^ k ≤ 0x48) : 0x24 ≤ (op ++ f).toNat ∧ (op ++ f).toNat ≤ 0x47 := by
  obtain ⟨hge, hlt⟩ := toNat_append_bounds op f
  omega

theorem isTrap_nopn (nn : BitVec 2) : IsTrap (.nopn nn) := trapRange_of_upperField _ nn (by decide) (by decide)
theorem isTrap_nop (m : Mode) (w : Word) : IsTrap (.nop m w) :=
  trapRange_of_upperField _ m.field (by decide) (by decide)
theorem isTrap_deci (m : Mode) (w : Word) : IsTrap (.deci m w) :=
  trapRange_of_upperField _ m.field (by decide) (by decide)
theorem isTrap_deco (m : Mode) (w : Word) : IsTrap (.deco m w) :=
  trapRange_of_upperField _ m.field (by decide) (by decide)
theorem isTrap_stro (m : Mode) (w : Word) : IsTrap (.stro m w) :=
  trapRange_of_upperField _ m.field (by decide) (by decide)

/-! ### What an instruction keeps -/

/-- What every instruction `i` that takes `s` to `t` must keep: the canonical form of memory, SP unless `i` or trap
entry writes it (R11), and every flag outside the set of `i` (R13). -/
structure Keeps (i : Instr) (s t : State) : Prop where
  wf : s.mem.wf = true → t.mem.wf = true
  sp : writesSp i = false → (IsTrap i → s.params.trapModel = .service) → t.sp = s.sp
  n : (flagsWritten i).1 = false → t.n = s.n
  z : (flagsWritten i).2.1 = false → t.z = s.z
  v : (flagsWritten i).2.2.1 = false → t.v = s.v
  c : (flagsWritten i).2.2.2 = false → t.c = s.c

/-- A change of memory and the streams keeps SP and all flags, whatever the instruction. -/
theorem DataEffect.keeps {s t : State} (h : DataEffect s t) (i : Instr) : Keeps i s t := by
  obtain ⟨hframe, hwf⟩ := h
  rw [hframe]
  exact ⟨hwf, fun _ _ => rfl, fun _ => rfl, fun _ => rfl, fun _ => rfl, fun _ => rfl⟩

/-- A state that differs outside memory, SP and the flags. -/
theorem Keeps.of_eq {i : Instr} {s t : State} (hmem : t.mem = s.mem) (hsp : t.sp = s.sp) (hn : t.n = s.n)
    (hz : t.z = s.z) (hv : t.v = s.v) (hc : t.c = s.c) : Keeps i s t :=
  ⟨fun h => hmem ▸ h, fun _ _ => hsp, fun _ => hn, fun _ => hz, fun _ => hv, fun _ => hc⟩

/-- Trap entry writes SP, but only with `TRAP_MODEL = hardware` (R129, R203). -/
theorem keeps_of_takeTrap {i : Instr} {s t : State} (hi : IsTrap i) (hmodel : s.params.trapModel = .hardware)
    (h : takeTrap s = .ok t) : Keeps i s t := by
  obtain ⟨framed, ⟨hframe, hwf⟩, rfl⟩ := takeTrap_dataEffect h
  rw [hframe]
  refine ⟨hwf, fun _ hservice => ?_, fun _ => rfl, fun _ => rfl, fun _ => rfl, fun _ => rfl⟩
  exact nomatch hmodel.symm.trans (hservice hi)

/-- A trap instruction keeps what it must if its service does, for trap entry does (R129). -/
theorem keeps_of_dispatchTrap {i : Instr} {s t : State} {service : Except Stop State} (hi : IsTrap i)
    (h : dispatchTrap s service = .next t) (hs : service = .ok t → Keeps i s t) : Keeps i s t := by
  rcases dispatchTrap_eq_next h with ⟨-, hservice⟩ | ⟨hmodel, htrap⟩
  · exact hs hservice
  · exact keeps_of_takeTrap hi hmodel htrap

/-! ### The trap instructions, the branches and CALL -/

theorem keeps_of_execNopn {nn : BitVec 2} {s t : State} (h : execNopn nn s = .next t) : Keeps (.nopn nn) s t := by
  refine keeps_of_dispatchTrap (isTrap_nopn nn) h fun hs => ?_
  cases hs
  exact (DataEffect.refl s).keeps _

theorem keeps_of_execNop {m : Mode} {w : Word} {s t : State} (h : execNop m w s = .next t) : Keeps (.nop m w) s t := by
  refine keeps_of_dispatchTrap (isTrap_nop m w) h fun hs => ?_
  obtain ⟨_, -, ht⟩ := bind_eq_ok hs
  cases ht
  exact (DataEffect.refl s).keeps _

/-- DECI writes N, Z and V after its store, and never C (R134). -/
theorem keeps_of_execDeci {m : Mode} {w : Word} {s t : State} (h : execDeci m w s = .next t) :
    Keeps (.deci m w) s t := by
  refine keeps_of_dispatchTrap (isTrap_deci m w) h fun hs => ?_
  obtain ⟨ea, -, hs⟩ := bind_eq_ok hs
  obtain ⟨⟨value, popped⟩, hpop, hs⟩ := bind_eq_ok hs
  obtain ⟨stored, hstore, ht⟩ := bind_eq_ok hs
  have heffect : DataEffect s stored := (dataEffect_of_popDecimal hpop).trans (dataEffect_of_write2 hstore)
  obtain ⟨hwf, hsp, -, -, -, hc⟩ := heffect.keeps (.deci m w)
  cases ht
  exact ⟨hwf, hsp, nofun, nofun, nofun, hc⟩

theorem keeps_of_execDeco {m : Mode} {w : Word} {s t : State} (h : execDeco m w s = .next t) :
    Keeps (.deco m w) s t := by
  refine keeps_of_dispatchTrap (isTrap_deco m w) h fun hs => ?_
  cases hs
  exact (DataEffect.outPut s _).keeps _

theorem keeps_of_execStro {m : Mode} {w : Word} {s t : State} (h : execStro m w s = .next t) :
    Keeps (.stro m w) s t := by
  refine keeps_of_dispatchTrap (isTrap_stro m w) h fun hs => ?_
  obtain ⟨ea, -, hs⟩ := bind_eq_ok hs
  cases hstring : stringAt s ea 65536 with
  | none => rw [hstring] at hs; exact nomatch hs
  | some bytes =>
    rw [hstring] at hs
    cases hs
    exact (DataEffect.outPut s bytes).keeps _

theorem keeps_of_branchIf {i : Instr} {taken : Bool} {a : BranchMode} {w : Word} {s t : State}
    (h : branchIf taken a w s = .next t) : Keeps i s t := by
  cases taken with
  | true => cases h; exact .of_eq rfl rfl rfl rfl rfl rfl
  | false => cases h; exact .of_eq rfl rfl rfl rfl rfl rfl

theorem keeps_of_execCall {a : BranchMode} {w : Word} {s t : State} (h : execCall a w s = .next t) :
    Keeps (.call a w) s t := by
  obtain ⟨pushed, heffect, rfl⟩ := execCall_eq_next h
  obtain ⟨hwf, -, hn, hz, hv, hc⟩ := heffect.keeps (.call a w)
  exact ⟨hwf, nofun, hn, hz, hv, hc⟩

/-! ### Every instruction, every step -/

/-- The instructions that write registers and flags only are read off their next states; the others are the lemmas
above. -/
theorem exec_keeps {i : Instr} {s t : State} (h : exec i s = .next t) : Keeps i s t := by
  cases i with
  | stop | movspa | movflga => cases h; exact .of_eq rfl rfl rfl rfl rfl rfl
  | rettr | addsp | subsp => cases h; exact ⟨id, nofun, nofun, nofun, nofun, nofun⟩
  | retn => cases h; exact ⟨id, nofun, fun _ => rfl, fun _ => rfl, fun _ => rfl, fun _ => rfl⟩
  | cpr => cases h; exact ⟨id, fun _ _ => rfl, nofun, nofun, nofun, nofun⟩
  | notr | andr | orr | ldr | ldbyter =>
    cases h; exact ⟨by simp, by simp, nofun, nofun, by simp, by simp⟩
  | negr => cases h; exact ⟨by simp, by simp, nofun, nofun, nofun, by simp⟩
  | asrr => cases h; exact ⟨by simp, by simp, nofun, nofun, by simp, nofun⟩
  | aslr | addr | subr => cases h; exact ⟨by simp, by simp, nofun, nofun, nofun, nofun⟩
  | rolr | rorr => cases h; exact ⟨by simp, by simp, by simp, by simp, by simp, nofun⟩
  | br | brle | brlt | breq | brne | brge | brgt | brv | brc => exact keeps_of_branchIf h
  | call => exact keeps_of_execCall h
  | nopn => exact keeps_of_execNopn h
  | nop => exact keeps_of_execNop h
  | deci => exact keeps_of_execDeci h
  | deco => exact keeps_of_execDeco h
  | stro => exact keeps_of_execStro h
  | chari => exact (dataEffect_of_execChari h).keeps _
  | charo => cases h; exact (DataEffect.outPut s _).keeps _
  | str => exact (dataEffect_of_execStr h).keeps _
  | stbyter => exact (dataEffect_of_execStbyter h).keeps _

/-- Settles O50: the fetch leaves memory alone, and every instruction keeps its canonical form. -/
theorem stepKeepsMemoryCanonical : Obligations.StepKeepsMemoryCanonical := by
  intro s t hs h
  obtain ⟨-, -, hexec⟩ := step_eq_next h
  have hfetched : s.fetched.mem.wf = true := by rw [State.fetched_mem]; exact hs
  exact (exec_keeps hexec).wf hfetched

/-- Settles O54: with the five trap instructions served, no instruction outside `writesSp` enters the trap. -/
theorem spWrittenOnlyByItsInstructions : Obligations.SpWrittenOnlyByItsInstructions :=
  fun _ _ _ hwrites hservice h => (exec_keeps h).sp hwrites hservice

/-- Settles O55: trap entry writes no flag, so the table holds for both trap models. -/
theorem flagsWrittenOnlyByTheirInstructions : Obligations.FlagsWrittenOnlyByTheirInstructions := by
  intro i s t h
  obtain ⟨-, -, hn, hz, hv, hc⟩ := exec_keeps h
  exact ⟨hn, hz, hv, hc⟩

end Sys2Proof.Proofs

/-! PROOFS, scope. Stores and ROM (spec/20_memory.md R31 to R37): what a store leaves to be read, which byte a fault
names, that ROM keeps its bytes, and which instructions write memory. -/

namespace Sys2Proof.Proofs

open Sys2Proof.Machine Sys2Proof.Claims

/-! ### ROM in the words of the statements (R35) -/

theorem inRom_eq_true_iff {s : State} {a : Word} : s.inRom a = true ↔ InRom s a := decide_eq_true_iff

theorem inRom_eq_false_iff {s : State} {a : Word} : s.inRom a = false ↔ ¬ InRom s a := decide_eq_false_iff_not

theorem inRom_congr {s t : State} (hp : t.params = s.params) {a : Word} : InRom t a ↔ InRom s a := by
  unfold InRom
  rw [hp]

theorem canStore_iff {s : State} {a : Word} :
    CanStore s a ↔ s.params.romWrite = .ignore ∨ s.inRom a = false := by
  rw [inRom_eq_false_iff]
  rfl

/-! ### A sequence of byte stores -/

/-- `MemWrite(a, 1, b)` for each cell `(a, b)` in order: what a word store (R34) and trap entry (R203) are made of. -/
def storeBytes (cells : List (Word × Byte)) (s : State) : Except Stop State :=
  cells.foldlM (fun s cell => s.write1 cell.1 cell.2) s

@[simp] theorem storeBytes_nil (s : State) : storeBytes [] s = .ok s := rfl

@[simp] theorem storeBytes_cons (cell : Word × Byte) (rest : List (Word × Byte)) (s : State) :
    storeBytes (cell :: rest) s = s.write1 cell.1 cell.2 >>= storeBytes rest := List.foldlM_cons

theorem storeBytes_append (cells rest : List (Word × Byte)) (s : State) :
    storeBytes (cells ++ rest) s = storeBytes cells s >>= storeBytes rest := List.foldlM_append

/-- The cells of a word store, the more significant byte first (R34). -/
def wordCells (a w : Word) : List (Word × Byte) := [(a, hiByte w), (a + 1, loByte w)]

/-- The cells of the trap frame in the order of R203's pseudocode. -/
def frameCells (s : State) : List (Word × Byte) :=
  let t := s.read2 sysSpVector
  let flags : Byte := 0b0000#4 ++ s.flagsNibble
  [(t - 1, s.ir)] ++ wordCells (t - 3) s.sp ++ wordCells (t - 5) s.pc ++ wordCells (t - 7) s.x ++
    wordCells (t - 9) s.a ++ [(t - 10, flags)]

theorem write1_eq_storeBytes (s : State) (a : Word) (b : Byte) : s.write1 a b = storeBytes [(a, b)] s :=
  (bind_pure (s.write1 a b)).symm

theorem write2_eq_storeBytes (s : State) (a w : Word) : s.write2 a w = storeBytes (wordCells a w) s := by
  unfold State.write2 wordCells
  simp only [write1_eq_storeBytes, ← storeBytes_append, List.singleton_append]

/-- Trap entry stores the cells of its frame in order, then writes SP and PC (R203). -/
theorem takeTrap_eq_storeBytes (s : State) :
    takeTrap s = storeBytes (frameCells s) s >>= fun framed =>
      pure { framed with sp := s.read2 sysSpVector - 10, pc := framed.read2 trapPcVector } := by
  unfold takeTrap frameCells
  simp only [write1_eq_storeBytes, write2_eq_storeBytes, storeBytes_append, bind_assoc]

/-! ### Which byte a fault names (R35, log entry 14) -/

theorem write1_faults {s : State} {a : Word} (b : Byte) (hw : s.params.romWrite = .fault) (ha : InRom s a) :
    s.write1 a b = .error (.fault (.romWrite a)) := by
  unfold State.write1
  rw [if_pos (inRom_eq_true_iff.mpr ha), hw]

/-- With `ROM_WRITE = fault` a sequence of stores ends at its first address in ROM: each store before it completes and
leaves ROM where it is. -/
theorem storeBytes_faults {cells : List (Word × Byte)} {before after : List Word} {named : Word} {s : State}
    (hcells : cells.map Prod.fst = before ++ named :: after) (hw : s.params.romWrite = .fault)
    (hbefore : ∀ a ∈ before, ¬ InRom s a) (hnamed : InRom s named) :
    storeBytes cells s = .error (.fault (.romWrite named)) := by
  induction before generalizing cells s with
  | nil =>
    obtain ⟨⟨_, b⟩, rest, rfl, rfl, -⟩ := List.map_eq_cons_iff.mp hcells
    rw [storeBytes_cons, write1_faults b hw hnamed]
    rfl
  | cons a before ih =>
    obtain ⟨⟨_, b⟩, rest, rfl, rfl, hrest⟩ := List.map_eq_cons_iff.mp hcells
    obtain ⟨s', hstore⟩ := State.write1_completes b (.inr (inRom_eq_false_iff.mpr (hbefore _ List.mem_cons_self)))
    have hp : s'.params = s.params := (streamsAdvance_of_write1 hstore).params
    rw [storeBytes_cons, hstore]
    refine ih hrest (hp ▸ hw) (fun a' ha' => ?_) ((inRom_congr hp).mpr hnamed)
    rw [inRom_congr hp]
    exact hbefore a' (List.mem_cons_of_mem _ ha')

theorem write2_faults {s : State} {a named : Word} (w : Word) (hw : s.params.romWrite = .fault)
    (h : FirstRomByte s a named) : s.write2 a w = .error (.fault (.romWrite named)) := by
  rw [write2_eq_storeBytes]
  rcases h with ⟨hfirst, rfl⟩ | ⟨hfirst, hsecond, rfl⟩
  · exact storeBytes_faults (before := []) rfl hw nofun hfirst
  · refine storeBytes_faults (before := [a]) rfl hw (fun a' ha' => ?_) hsecond
    rw [List.mem_singleton.mp ha']
    exact hfirst

/-- The statement's list of addresses is that of the frame's cells. -/
theorem frameCells_addresses (s : State) : (frameCells s).map Prod.fst = frameStores s := by
  have hnext : ∀ (t k : Word), t - k + 1 = t - (k - 1) := fun t k => by bv_omega
  simp only [frameCells, wordCells, List.map_cons, List.map_nil, List.cons_append, List.nil_append,
    hnext]
  rfl

theorem takeTrap_faults {s : State} {before after : List Word} {named : Word} (hw : s.params.romWrite = .fault)
    (hstores : frameStores s = before ++ named :: after) (hbefore : ∀ a ∈ before, ¬ InRom s a)
    (hnamed : InRom s named) : takeTrap s = .error (.fault (.romWrite named)) := by
  rw [takeTrap_eq_storeBytes, storeBytes_faults ((frameCells_addresses s).trans hstores) hw hbefore hnamed]
  rfl

/-! ### Which instructions enter the trap (R129, R200) -/

/-- A specifier whose upper field is that of no trap row lies outside the range of the trap instructions. -/
theorem not_trapRange_of_upperField {n k : Nat} (op : BitVec n) (f : BitVec k)
    (h : (op.toNat + 1) * 2 ^ k ≤ 0x24 ∨ 0x48 ≤ op.toNat * 2 ^ k) :
    ¬ (0x24 ≤ (op ++ f).toNat ∧ (op ++ f).toNat ≤ 0x47) := by
  obtain ⟨hge, hlt⟩ := toNat_append_bounds op f
  omega

theorem dispatchTrap_of_hardware {s : State} (hmodel : s.params.trapModel = .hardware) (service : Except Stop State) :
    dispatchTrap s service = finish (takeTrap s) := by
  unfold dispatchTrap
  rw [hmodel]

/-- With `TRAP_MODEL = hardware` every instruction of the trap range enters the trap, whatever its mode is. -/
theorem exec_of_isTrap_hardware {i : Instr} {s : State} (hi : IsTrap i) (hmodel : s.params.trapModel = .hardware) :
    exec i s = finish (takeTrap s) := by
  cases i with
  | nopn | nop | deci | deco | stro => exact dispatchTrap_of_hardware hmodel _
  | stop | rettr | movspa | movflga => exact absurd hi (by unfold IsTrap; decide)
  | br | brle | brlt | breq | brne | brge | brgt | brv | brc | call =>
    exact absurd hi (not_trapRange_of_upperField _ _ (by decide))
  | notr | negr | aslr | asrr | rolr | rorr => exact absurd hi (not_trapRange_of_upperField _ _ (by decide))
  | retn | chari | charo | addsp | subsp => exact absurd hi (not_trapRange_of_upperField _ _ (by decide))
  | addr r | subr r | andr r | orr r | cpr r | ldr r | ldbyter r | str r | stbyter r =>
    cases r <;> exact absurd hi (not_trapRange_of_upperField _ _ (by decide))

/-! ### The storing instructions with `ROM_WRITE = fault` -/

theorem operandAddress_destination {m : Mode} {w ea : Word} {s : State} (hea : effectiveAddress m w s = some ea) :
    operandAddress destinationModes m w s = .ok ea :=
  operandAddress_completes (destinationModes_of_ea hea) hea

theorem execStr_faults {r : Reg} {m : Mode} {w ea named : Word} {s : State} (hw : s.params.romWrite = .fault)
    (hea : effectiveAddress m w s = some ea) (h : FirstRomByte s ea named) :
    execStr r m w s = .fault (.romWrite named) := by
  unfold execStr
  rw [operandAddress_destination hea]
  show finish (s.write2 ea (s.reg r)) = _
  rw [write2_faults _ hw h, finish_fault]

theorem execStbyter_faults {r : Reg} {m : Mode} {w ea : Word} {s : State} (hw : s.params.romWrite = .fault)
    (hea : effectiveAddress m w s = some ea) (h : InRom s ea) : execStbyter r m w s = .fault (.romWrite ea) := by
  unfold execStbyter
  rw [operandAddress_destination hea]
  show finish (s.write1 ea (loByte (s.reg r))) = _
  rw [write1_faults _ hw h, finish_fault]

theorem execCall_faults {a : BranchMode} {w named : Word} {s : State} (hw : s.params.romWrite = .fault)
    (h : FirstRomByte s (s.sp - 2) named) : execCall a w s = .fault (.romWrite named) := by
  unfold execCall
  dsimp only
  rw [write2_faults (s := { s with sp := s.sp - 2 }) s.pc hw h]
  rfl

theorem execChari_faults {m : Mode} {w ea : Word} {s : State} {c : Byte} {rest : List Byte}
    (hw : s.params.romWrite = .fault) (hea : effectiveAddress m w s = some ea) (hin : s.input = c :: rest)
    (h : InRom s ea) : execChari m w s = .fault (.romWrite ea) := by
  have hpop : s.inPop = .ok (c, { s with input := rest }) := by unfold State.inPop; rw [hin]
  unfold execChari
  rw [operandAddress_destination hea, hpop]
  show finish (State.write1 { s with input := rest } ea c) = _
  rw [write1_faults (s := { s with input := rest }) c hw h, finish_fault]

theorem execDeci_faults {m : Mode} {w ea named : Word} {s : State} {value : Int} {rest : List Byte}
    (hw : s.params.romWrite = .fault) (hmodel : s.params.trapModel = .service)
    (hea : effectiveAddress m w s = some ea) (hread : readDecimal s.input = .numeral value rest)
    (h : FirstRomByte s ea named) : execDeci m w s = .fault (.romWrite named) := by
  have hpop : s.popDecimal = .ok (value, { s with input := rest }) := by unfold State.popDecimal; rw [hread]
  unfold execDeci dispatchTrap
  rw [hmodel, operandAddress_destination hea, hpop]
  show finish (State.write2 { s with input := rest } ea (BitVec.ofInt 16 value) >>= _) = _
  rw [write2_faults (s := { s with input := rest }) _ hw h]
  rfl

/-- Settles O31: each storing instruction ends in its store's fault, and trap entry in that of its frame. -/
theorem storeToRomFaults : Obligations.StoreToRomFaults := by
  intro s hw
  refine ⟨?str, ?stbyter, ?call, ?chari, ?deci, ?trap⟩
  case str => exact fun _ _ _ _ _ hea h => execStr_faults hw hea h
  case stbyter => exact fun _ _ _ _ hea h => execStbyter_faults hw hea h
  case call => exact fun _ _ _ h => execCall_faults hw h
  case chari => exact fun _ _ _ _ _ hea hin h => execChari_faults hw hea hin h
  case deci => exact fun _ _ _ _ _ _ hmodel hea hread h => execDeci_faults hw hmodel hea hread h
  case trap =>
    intro i before named after hi hmodel hstores hbefore hnamed
    rw [exec_of_isTrap_hardware hi hmodel, takeTrap_faults hw hstores hbefore hnamed, finish_fault]

/-! ### What a word store leaves to be read (R32, R34) -/

/-- The ROM test is made for each byte by itself; the second address differs from the first, at 0xFFFF too. -/
theorem storesWord_of_write2 {s t : State} {a w : Word} (h : s.write2 a w = .ok t) : StoresWord s t a w := by
  have hne : a + 1 ≠ a := succ_ne_self a
  have hread := State.write2_read1 h
  refine ⟨fun hram => ?_, fun hrom => ?_, fun hram => ?_, fun hrom => ?_, fun k hk hk' => ?_⟩
  · rw [hread, if_neg (fun hk => hne hk.1.symm), if_pos ⟨rfl, inRom_eq_false_iff.mpr hram⟩]
    rfl
  · rw [hread, if_neg (fun hk => hne hk.1.symm), if_neg (fun hk => inRom_eq_false_iff.mp hk.2 hrom)]
  · rw [hread, if_pos ⟨rfl, inRom_eq_false_iff.mpr hram⟩]
    rfl
  · rw [hread, if_neg (fun hk => inRom_eq_false_iff.mp hk.2 hrom), if_neg (fun hk => hne hk.1)]
  · rw [hread, if_neg (fun h => hk' h.1), if_neg (fun h => hk h.1)]

/-- Settles O30: a word store is two byte stores, and the bytes of a word make it up. -/
theorem wordStoreIsBigEndian : Obligations.WordStoreIsBigEndian := by
  refine ⟨fun s a => rfl, fun s a w ha ha' => ?_⟩
  obtain ⟨t, hstore⟩ := State.write2_completes w (canStore_iff.mp ha) (canStore_iff.mp ha')
  have hbytes : StoresWord s t a w := storesWord_of_write2 hstore
  refine ⟨t, hstore, State.write2_frame hstore, hbytes, fun hram hram' => ?_⟩
  obtain ⟨hhi, -, hlo, -, -⟩ := hbytes
  calc t.read2 a = wordOf (t.read1 a) (t.read1 (a + 1)) := rfl
    _ = wordOf (hiByte w) (loByte w) := by rw [hhi hram, hlo hram']; rfl
    _ = w := wordOf_hiByte_loByte w

/-! ### ROM keeps its bytes (R35) -/

/-- `t` has the ROM of `s`: the same addresses, with the same bytes. -/
structure RomKept (s t : State) : Prop where
  params : t.params = s.params
  bytes : ∀ a, InRom s a → t.read1 a = s.read1 a

theorem RomKept.of_eq {s t : State} (hp : t.params = s.params) (hm : t.mem = s.mem) : RomKept s t :=
  ⟨hp, fun a _ => State.read1_congr hm a⟩

theorem RomKept.trans {s t u : State} (h : RomKept s t) (h' : RomKept t u) : RomKept s u :=
  ⟨h'.params.trans h.params, fun a ha => (h'.bytes a ((inRom_congr h.params).mpr ha)).trans (h.bytes a ha)⟩

/-- A store that completes either falls in ROM and is ignored, or is outside ROM. -/
theorem romKept_of_write1 {s t : State} {a : Word} {b : Byte} (h : s.write1 a b = .ok t) : RomKept s t := by
  refine ⟨(streamsAdvance_of_write1 h).params, fun k hk => ?_⟩
  have hoff : ¬ (k = a ∧ s.inRom a = false) := fun ⟨hka, hram⟩ => inRom_eq_false_iff.mp hram (hka ▸ hk)
  rw [State.write1_read1 h, if_neg hoff]

theorem romKept_of_storeBytes {cells : List (Word × Byte)} {s t : State} (h : storeBytes cells s = .ok t) :
    RomKept s t := by
  induction cells generalizing s with
  | nil =>
    cases h
    exact .of_eq rfl rfl
  | cons cell rest ih =>
    obtain ⟨s', hstore, hrest⟩ := bind_eq_ok h
    exact (romKept_of_write1 hstore).trans (ih hrest)

theorem romKept_of_write2 {s t : State} {a w : Word} (h : s.write2 a w = .ok t) : RomKept s t :=
  romKept_of_storeBytes ((write2_eq_storeBytes s a w).symm.trans h)

theorem romKept_of_takeTrap {s t : State} (h : takeTrap s = .ok t) : RomKept s t := by
  obtain ⟨framed, hstores, ht⟩ := bind_eq_ok ((takeTrap_eq_storeBytes s).symm.trans h)
  cases ht
  exact (romKept_of_storeBytes hstores).trans (.of_eq rfl rfl)

/-! ### What each instruction does to memory (R35, R37) -/

/-- What the instruction `i`, taking `s` to `t`, can do to memory: nothing; if it is one of R37's writers, store outside
ROM; if it enters the trap, store its frame outside ROM. -/
inductive MemoryEffect (i : Instr) (s t : State) : Prop where
  | none (hmem : t.mem = s.mem)
  | store (hi : writesMemory i = true) (hrom : RomKept s t)
  | trap (hi : IsTrap i) (hmodel : s.params.trapModel = .hardware) (hrom : RomKept s t)

theorem memoryEffect_of_dispatchTrap {i : Instr} {s t : State} {service : Except Stop State} (hi : IsTrap i)
    (h : dispatchTrap s service = .next t) (hs : service = .ok t → MemoryEffect i s t) : MemoryEffect i s t := by
  rcases dispatchTrap_eq_next h with ⟨-, hservice⟩ | ⟨hmodel, htrap⟩
  · exact hs hservice
  · exact .trap hi hmodel (romKept_of_takeTrap htrap)

theorem branchIf_mem {taken : Bool} {a : BranchMode} {w : Word} {s t : State} (h : branchIf taken a w s = .next t) :
    t.mem = s.mem := by
  cases taken with
  | true => cases h; rfl
  | false => cases h; rfl

theorem romKept_of_execCall {a : BranchMode} {w : Word} {s t : State} (h : execCall a w s = .next t) :
    RomKept s t := by
  obtain ⟨pushed, hpush, ht⟩ := bind_eq_ok (finish_eq_next h)
  cases ht
  have hlowered : RomKept s { s with sp := s.sp - 2 } := .of_eq rfl rfl
  exact hlowered.trans ((romKept_of_write2 hpush).trans (.of_eq rfl rfl))

theorem romKept_of_execStr {r : Reg} {m : Mode} {w : Word} {s t : State} (h : execStr r m w s = .next t) :
    RomKept s t := by
  obtain ⟨ea, -, hstore⟩ := bind_eq_ok (finish_eq_next h)
  exact romKept_of_write2 hstore

theorem romKept_of_execStbyter {r : Reg} {m : Mode} {w : Word} {s t : State} (h : execStbyter r m w s = .next t) :
    RomKept s t := by
  obtain ⟨ea, -, hstore⟩ := bind_eq_ok (finish_eq_next h)
  exact romKept_of_write1 hstore

theorem romKept_of_execChari {m : Mode} {w : Word} {s t : State} (h : execChari m w s = .next t) : RomKept s t := by
  obtain ⟨ea, -, h⟩ := bind_eq_ok (finish_eq_next h)
  obtain ⟨⟨c, popped⟩, hpop, hstore⟩ := bind_eq_ok h
  obtain ⟨rest, -, rfl⟩ := State.inPop_eq_ok hpop
  have hpopped : RomKept s { s with input := rest } := .of_eq rfl rfl
  exact hpopped.trans (romKept_of_write1 hstore)

theorem memoryEffect_of_execDeci {m : Mode} {w : Word} {s t : State} (h : execDeci m w s = .next t) :
    MemoryEffect (.deci m w) s t := by
  refine memoryEffect_of_dispatchTrap (isTrap_deci m w) h fun hs => .store rfl ?_
  obtain ⟨ea, -, hs⟩ := bind_eq_ok hs
  obtain ⟨⟨value, popped⟩, hpop, hs⟩ := bind_eq_ok hs
  obtain ⟨stored, hstore, ht⟩ := bind_eq_ok hs
  obtain ⟨rest, -, rfl⟩ := popDecimal_eq_ok hpop
  cases ht
  have hpopped : RomKept s { s with input := rest } := .of_eq rfl rfl
  exact hpopped.trans ((romKept_of_write2 hstore).trans (.of_eq rfl rfl))

theorem memoryEffect_of_execNop {m : Mode} {w : Word} {s t : State} (h : execNop m w s = .next t) :
    MemoryEffect (.nop m w) s t := by
  refine memoryEffect_of_dispatchTrap (isTrap_nop m w) h fun hs => .none ?_
  obtain ⟨_, -, ht⟩ := bind_eq_ok hs
  cases ht
  rfl

theorem memoryEffect_of_execStro {m : Mode} {w : Word} {s t : State} (h : execStro m w s = .next t) :
    MemoryEffect (.stro m w) s t := by
  refine memoryEffect_of_dispatchTrap (isTrap_stro m w) h fun hs => .none ?_
  obtain ⟨ea, -, hs⟩ := bind_eq_ok hs
  cases hstring : stringAt s ea 65536 with
  | none => rw [hstring] at hs; exact nomatch hs
  | some bytes =>
    rw [hstring] at hs
    cases hs
    rfl

/-- The instructions that write registers, flags or the output only are read off their next states. -/
theorem exec_memoryEffect {i : Instr} {s t : State} (h : exec i s = .next t) : MemoryEffect i s t := by
  cases i with
  | stop | rettr | movspa | movflga | retn | addsp | subsp | cpr | charo => cases h; exact .none rfl
  | notr | negr | aslr | asrr | rolr | rorr => cases h; exact .none (by simp)
  | addr | subr | andr | orr | ldr | ldbyter => cases h; exact .none (by simp)
  | br | brle | brlt | breq | brne | brge | brgt | brv | brc => exact .none (branchIf_mem h)
  | call => exact .store rfl (romKept_of_execCall h)
  | str => exact .store rfl (romKept_of_execStr h)
  | stbyter => exact .store rfl (romKept_of_execStbyter h)
  | chari => exact .store rfl (romKept_of_execChari h)
  | deci => exact memoryEffect_of_execDeci h
  | nopn nn => exact memoryEffect_of_dispatchTrap (isTrap_nopn nn) h fun hs => by cases hs; exact .none rfl
  | deco m w => exact memoryEffect_of_dispatchTrap (isTrap_deco m w) h fun hs => by cases hs; exact .none rfl
  | nop => exact memoryEffect_of_execNop h
  | stro => exact memoryEffect_of_execStro h

theorem exec_romKept {i : Instr} {s t : State} (h : exec i s = .next t) : RomKept s t := by
  cases exec_memoryEffect h with
  | none hmem => exact .of_eq (exec_streamsAdvance h).params hmem
  | store _ hrom => exact hrom
  | trap _ _ hrom => exact hrom

/-- Settles O52: the fetch leaves memory alone, and every instruction keeps the bytes of ROM. -/
theorem romKeepsItsBytes : Obligations.RomKeepsItsBytes := by
  intro s t a h ha
  obtain ⟨-, -, hexec⟩ := step_eq_next h
  have hfetched : RomKept s s.fetched := .of_eq s.fetched_params s.fetched_mem
  exact (hfetched.trans (exec_romKept hexec)).bytes a ha

/-- Settles O56: an instruction outside R37's list has no store, and with the trap instructions served none enters the
trap. -/
theorem memoryWrittenOnlyByItsInstructions : Obligations.MemoryWrittenOnlyByItsInstructions := by
  intro i s t hwrites hservice h
  cases exec_memoryEffect h with
  | none hmem => exact hmem
  | store hi _ => exact nomatch hwrites.symm.trans hi
  | trap hi hmodel _ => exact nomatch hmodel.symm.trans (hservice hi)

end Sys2Proof.Proofs

/-! PROOFS, scope. Every instruction is decoded from its own bytes (spec/30_encoding.md R50 to R53, R55), and the unary
specifiers (R51). -/

namespace Sys2Proof.Proofs

open Sys2Proof.Machine

/-! ### Decoding the bytes of an instruction -/

theorem decode_of_unary {b : Byte} (h : unarySpecifier b = true) (rest : List Byte) :
    decode (b :: rest) = .ok (decodeSpecifier b 0, rest) := by
  unfold decode
  dsimp only
  rw [if_pos h]

theorem decode_of_nonunary {b : Byte} (h : unarySpecifier b = false) (hi lo : Byte) (rest : List Byte) :
    decode (b :: hi :: lo :: rest) = .ok (decodeSpecifier b (wordOf hi lo), rest) := by
  unfold decode
  dsimp only
  rw [h, if_neg Bool.false_ne_true]

/-! ### The fields of an instruction's own specifier (R53) -/

theorem modeOfField_field (m : Mode) : modeOfField m.field = m := by cases m <;> rfl

theorem regOfBit_field (r : Reg) : regOfBit (r.field.getLsbD 0) = r := by cases r <;> rfl

theorem branchModeOfBit_field (a : BranchMode) : branchModeOfBit (a.field.getLsbD 0) = a := by cases a <;> rfl

theorem getLsbD_zero_append {n k : Nat} (op : BitVec n) (f : BitVec (k + 1)) :
    (op ++ f).getLsbD 0 = f.getLsbD 0 := by
  rw [BitVec.getLsbD_append, if_pos k.succ_pos]

/-- The row number of the specifiers 0x70 to 0xFF stands above two fields. -/
theorem rowNumber_append (op : BitVec 4) (r : BitVec 1) (m : BitVec 3) : (op ++ r ++ m).extractLsb' 4 4 = op := by
  refine BitVec.eq_of_getLsbD_eq fun i hi => ?_
  rw [BitVec.getLsbD_extractLsb', BitVec.getLsbD_append, if_neg (by omega), BitVec.getLsbD_append, if_neg (by omega),
    show 4 + i - 3 - 1 = i by omega, decide_eq_true hi, Bool.true_and]

theorem registerBit_append (op : BitVec 4) (r : BitVec 1) (m : BitVec 3) :
    (op ++ r ++ m).getLsbD 3 = r.getLsbD 0 := by
  rw [BitVec.getLsbD_append, if_neg (by omega), BitVec.getLsbD_append, if_pos (by omega)]

/-! ### The row that a specifier selects (R55) -/

theorem decodeSpecifier_registerRow {op : BitVec 4} (r : BitVec 1) (m : BitVec 3) (w : Word) (h : 0x7 ≤ op.toNat) :
    decodeSpecifier (op ++ r ++ m) w = decodeRegisterRow (op ++ r ++ m) w := by
  obtain ⟨hop, -⟩ := toNat_append_bounds op r
  obtain ⟨hge, -⟩ := toNat_append_bounds (op ++ r) m
  have hrow : 0x70 ≤ (op ++ r ++ m).toNat := by omega
  unfold decodeSpecifier
  rw [if_pos (show 0x70#8 ≤ op ++ r ++ m from hrow)]

theorem decodeSpecifier_modeRow {op : BitVec 5} (f : BitVec 3) (w : Word) (hlo : 0x28 ≤ op.toNat * 2 ^ 3)
    (hhi : (op.toNat + 1) * 2 ^ 3 ≤ 0x70) : decodeSpecifier (op ++ f) w = decodeModeRow (op ++ f) w := by
  obtain ⟨hge, hlt⟩ := toNat_append_bounds op f
  unfold decodeSpecifier
  simp only [BitVec.le_def, BitVec.toNat_ofNat, Nat.reducePow, Nat.reduceMod]
  rw [if_neg (by omega), if_pos (by omega)]

theorem decodeSpecifier_nopn (nn : BitVec 2) (w : Word) : decodeSpecifier (0b001001#6 ++ nn) w = .nopn nn := by
  obtain ⟨hge, hlt⟩ := toNat_append_bounds 0b001001#6 nn
  unfold decodeSpecifier
  simp only [BitVec.le_def, BitVec.toNat_ofNat, Nat.reducePow, Nat.reduceMod] at hge hlt ⊢
  rw [if_neg (by omega), if_neg (by omega), if_pos (by omega), extractLsb'_append_right]

theorem decodeSpecifier_bitRow {op : BitVec 7} (f : BitVec 1) (w : Word) (hlo : 0x04 ≤ op.toNat * 2 ^ 1)
    (hhi : (op.toNat + 1) * 2 ^ 1 ≤ 0x24) : decodeSpecifier (op ++ f) w = decodeBitRow (op ++ f) w := by
  obtain ⟨hge, hlt⟩ := toNat_append_bounds op f
  unfold decodeSpecifier
  simp only [BitVec.le_def, BitVec.toNat_ofNat, Nat.reducePow, Nat.reduceMod]
  rw [if_neg (by omega), if_neg (by omega), if_neg (by omega), if_pos (by omega)]

/-- The specifier selects the row it was made from and gives back its fields; the operand specifier of a unary
instruction, which has none, is not looked at. -/
theorem decodeSpecifier_specifierOf (i : Instr) (ignored : Word) :
    decodeSpecifier (specifierOf i) ((operandSpecifierOf i).getD ignored) = i := by
  cases i with
  | stop | rettr | movspa | movflga => rfl
  | br a w | brle a w | brlt a w | breq a w | brne a w | brge a w | brgt a w | brv a w | brc a w | call a w =>
    show decodeSpecifier (_ ++ a.field) w = _
    rw [decodeSpecifier_bitRow _ _ (by decide) (by decide)]
    unfold decodeBitRow
    rw [extractLsb'_append_left, getLsbD_zero_append, branchModeOfBit_field]
    rfl
  | notr r | negr r | aslr r | asrr r | rolr r | rorr r =>
    show decodeSpecifier (_ ++ r.field) ignored = _
    rw [decodeSpecifier_bitRow _ _ (by decide) (by decide)]
    unfold decodeBitRow
    rw [extractLsb'_append_left, getLsbD_zero_append, regOfBit_field]
    rfl
  | nopn nn => exact decodeSpecifier_nopn nn ignored
  | nop m w | deci m w | deco m w | stro m w | chari m w | charo m w | addsp m w | subsp m w =>
    show decodeSpecifier (_ ++ m.field) w = _
    rw [decodeSpecifier_modeRow _ _ (by decide) (by decide)]
    unfold decodeModeRow
    rw [extractLsb'_append_left, extractLsb'_append_right, modeOfField_field]
    rfl
  | retn n =>
    show decodeSpecifier (_ ++ n) ignored = _
    rw [decodeSpecifier_modeRow _ _ (by decide) (by decide)]
    unfold decodeModeRow
    rw [extractLsb'_append_left, extractLsb'_append_right]
    rfl
  | addr r m w | subr r m w | andr r m w | orr r m w | cpr r m w | ldr r m w | ldbyter r m w | str r m w
  | stbyter r m w =>
    show decodeSpecifier (_ ++ r.field ++ m.field) w = _
    rw [decodeSpecifier_registerRow _ _ _ (by decide)]
    unfold decodeRegisterRow
    rw [rowNumber_append, registerBit_append, extractLsb'_append_right, regOfBit_field, modeOfField_field]
    rfl

/-- Settles O45: R51's predicate tells from the specifier how many bytes belong to the instruction, and the specifier
with those bytes gives the instruction back. -/
theorem decodeOfEncodeIsTheInstruction : Obligations.DecodeOfEncodeIsTheInstruction := by
  intro i rest
  have hunary := unarySpecifier_specifierOf i
  have hback := decodeSpecifier_specifierOf i 0
  unfold encode
  cases hw : operandSpecifierOf i with
  | none =>
    rw [hw] at hunary hback
    calc decode (specifierOf i :: rest) = .ok (decodeSpecifier (specifierOf i) 0, rest) := decode_of_unary hunary rest
      _ = .ok (i, rest) := congrArg (fun j => Except.ok (j, rest)) hback
  | some w =>
    rw [hw] at hunary hback
    calc decode (specifierOf i :: hiByte w :: loByte w :: rest)
        = .ok (decodeSpecifier (specifierOf i) (wordOf (hiByte w) (loByte w)), rest) := decode_of_nonunary hunary ..
      _ = .ok (decodeSpecifier (specifierOf i) w, rest) := by rw [wordOf_hiByte_loByte]
      _ = .ok (i, rest) := congrArg (fun j => Except.ok (j, rest)) hback

theorem operandSpecifierOf_decodeSpecifier_eq_none_iff (b : Byte) (w : Word) :
    operandSpecifierOf (decodeSpecifier b w) = none ↔ unarySpecifier b = true := by
  rw [operandSpecifierOf_decodeSpecifier]
  cases unarySpecifier b <;> simp

/-- Settles O48: R51's predicate compares bytes as numbers, and a decoded instruction has an operand specifier exactly
if its specifier is not unary. -/
theorem unarySpecifiersHaveNoOperand : Obligations.UnarySpecifiersHaveNoOperand := by
  intro b w
  refine ⟨?_, operandSpecifierOf_decodeSpecifier_eq_none_iff b w⟩
  simp only [unarySpecifier, Bool.or_eq_true, Bool.and_eq_true, decide_eq_true_eq, BitVec.le_def, or_assoc]
  rfl

/-- Settles O49: the bytes of each word are the encoding of its instruction. -/
theorem specWordsDecode : Obligations.SpecWordsDecode := by
  have h : ∀ i : Instr, decode (encode i ++ []) = .ok (i, []) := fun i => decodeOfEncodeIsTheInstruction i []
  exact ⟨h .stop, h (.br .x 0x0010), h (.call .i 0x000A), h (.negr .x), h (.nopn 1), h (.stro .sf 0x0002),
    h (.chari .s 0x0000), h (.retn 4), h (.subsp .i 0x0004), h (.addr .x .sxf 0x1234), h (.str .x .x 0x0000)⟩

end Sys2Proof.Proofs

/-! PROOFS, scope. The fetch (spec/30_encoding.md R54), the operands of the addressing modes (R60 to R69), and the modes
the source does not list for an instruction (R70). -/

namespace Sys2Proof.Proofs

open Sys2Proof.Machine Sys2Proof.Claims

/-! ### The fetch (R54) -/

theorem step_of_running {s : State} (hh : s.halted = false) (hf : s.fault = none) :
    step s = exec s.fetchInstr s.fetched := by
  unfold step cycle
  rw [hf, hh]
  rfl

/-- The bytes at PC begin with those of the fetched instruction. -/
theorem fetchBytes_eq (s : State) : ∃ rest, s.fetchBytes = encode s.fetchInstr ++ rest := by
  unfold State.fetchBytes State.fetchInstr
  rw [encode_decodeSpecifier]
  cases unarySpecifier (s.read1 s.pc) with
  | true => exact ⟨_, rfl⟩
  | false =>
    refine ⟨[], ?_⟩
    simp only [State.read2, hiByte_wordOf, loByte_wordOf, BitVec.add_assoc]
    rfl

theorem fetchInstr_of_decode {s : State} {i : Instr} {rest : List Byte} (h : decode s.fetchBytes = .ok (i, rest)) :
    s.fetchInstr = i := by
  obtain ⟨rest', hbytes⟩ := fetchBytes_eq s
  rw [hbytes, decodeOfEncodeIsTheInstruction] at h
  exact congrArg Prod.fst (Except.ok.inj h)

/-- The fetch writes `Spec` and moves PC by the operand specifier of the fetched instruction. -/
theorem fetched_eq (s : State) :
    s.fetched = if operandSpecifierOf s.fetchInstr = none then { s with ir := s.read1 s.pc, pc := s.pc + 1 }
      else { s with ir := s.read1 s.pc, spec := s.read2 (s.pc + 1), pc := s.pc + 3 } := by
  unfold State.fetched State.fetchInstr
  simp only [operandSpecifierOf_decodeSpecifier_eq_none_iff]

/-- Settles O1: the instruction that decodes from the bytes at PC is the fetched one, and its operand specifier decides
what the fetch leaves. -/
theorem stepRunsDecodedInstruction : Obligations.StepRunsDecodedInstruction := by
  intro s i rest hh hf h
  rw [step_of_running hh hf, fetched_eq, fetchInstr_of_decode h]

/-! ### Operands (R60 to R69) -/

theorem operand16_of_ea {m : Mode} {w ea : Word} {s : State} (h : effectiveAddress m w s = some ea) :
    operand16 m w s = s.read2 ea := by
  unfold operand16
  rw [h]

theorem operand8_of_ea {m : Mode} {w ea : Word} {s : State} (h : effectiveAddress m w s = some ea) :
    operand8 m w s = s.read1 ea := by
  unfold operand8
  rw [h]

/-- Settles O29: the table of R60 to R67 line by line, and the operands at an address. -/
theorem operandsByAddressingMode : Obligations.OperandsByAddressingMode := fun _ _ =>
  ⟨rfl, rfl, rfl, rfl, rfl, rfl, rfl, rfl, rfl, rfl, fun _ _ h => ⟨operand16_of_ea h, operand8_of_ea h⟩⟩

/-! ### Illegal addressing modes (R70) -/

theorem isMemory_eq_contains (m : Mode) : m.isMemory = destinationModes.contains m := by cases m <;> rfl

theorem isString_eq_contains (m : Mode) : m.isString = stringModes.contains m := by cases m <;> rfl

theorem isImmediate_eq_contains (m : Mode) : m.isImmediate = nopModes.contains m := by cases m <;> rfl

theorem requireMode_of_unlisted {legal : List Mode} {m : Mode} (h : legal.contains m = false) (s : State) :
    requireMode legal m s = .error (.fault (.illegalAddressingMode s.ir)) := by
  unfold requireMode
  rw [h]
  rfl

theorem operandAddress_of_unlisted {legal : List Mode} {m : Mode} (h : legal.contains m = false) (w : Word)
    (s : State) : operandAddress legal m w s = .error (.fault (.illegalAddressingMode s.ir)) := by
  unfold operandAddress
  rw [requireMode_of_unlisted h]
  rfl

theorem dispatchTrap_of_service {s : State} (hmodel : s.params.trapModel = .service) (service : Except Stop State) :
    dispatchTrap s service = finish service := by
  unfold dispatchTrap
  rw [hmodel]

/-- An instruction with a mode the source does not list for it faults before it does anything else, unless it enters the
trap (R54, R70). -/
theorem exec_of_illFormed {i : Instr} {s : State} (hi : i.wellFormed = false)
    (hservice : IsTrap i → s.params.trapModel = .service) : exec i s = .fault (.illegalAddressingMode s.ir) := by
  cases i with
  | nop m w =>
    have hmode := (isImmediate_eq_contains m).symm.trans hi
    show dispatchTrap s _ = _
    rw [dispatchTrap_of_service (hservice (isTrap_nop m w)), requireMode_of_unlisted hmode]
    rfl
  | deci m w =>
    have hmode := (isMemory_eq_contains m).symm.trans hi
    show dispatchTrap s _ = _
    rw [dispatchTrap_of_service (hservice (isTrap_deci m w)), operandAddress_of_unlisted hmode]
    rfl
  | stro m w =>
    have hmode := (isString_eq_contains m).symm.trans hi
    show dispatchTrap s _ = _
    rw [dispatchTrap_of_service (hservice (isTrap_stro m w)), operandAddress_of_unlisted hmode]
    rfl
  | chari m w | str r m w | stbyter r m w =>
    have hmode := (isMemory_eq_contains m).symm.trans hi
    show finish _ = _
    rw [operandAddress_of_unlisted hmode]
    rfl
  | _ => exact nomatch hi

/-- Whether an instruction uses a listed mode can be told from its specifier (R70). -/
theorem wellFormed_eq (i : Instr) : i.wellFormed = !illegalSpecifiers.contains (specifierOf i) := by
  cases i with
  | stop | rettr | movspa | movflga => rfl
  | br a | brle a | brlt a | breq a | brne a | brge a | brgt a | brv a | brc a | call a => cases a <;> rfl
  | notr r | negr r | aslr r | asrr r | rolr r | rorr r => cases r <;> rfl
  | nopn f | retn f => revert f; decide
  | nop m | deci m | deco m | stro m | chari m | charo m | addsp m | subsp m => cases m <;> rfl
  | addr r m | subr r m | andr r m | orr r m | cpr r m | ldr r m | ldbyter r m | str r m | stbyter r m =>
    cases r <;> cases m <;> rfl

theorem decodeSpecifier_illFormed_iff (b : Byte) (w : Word) :
    (decodeSpecifier b w).wellFormed = false ↔ b ∈ illegalSpecifiers := by
  rw [wellFormed_eq, specifierOf_decodeSpecifier, Bool.not_eq_false', List.contains_iff_mem]

/-- Settles O44: the fetched instruction is ill-formed exactly if its specifier is one of the 18, and `IR` holds that
specifier when it faults. -/
theorem illegalModesFault : Obligations.IllegalModesFault := by
  refine ⟨decodeSpecifier_illFormed_iff, ?_⟩
  intro s b hh hf hb hillegal htrap
  have hill : s.fetchInstr.wellFormed = false :=
    (decodeSpecifier_illFormed_iff _ _).mpr (by rw [hb]; exact hillegal)
  have hspecifier : specifierOf s.fetchInstr = b := (specifierOf_decodeSpecifier _ _).trans hb
  have hservice : IsTrap s.fetchInstr → s.fetched.params.trapModel = .service := by
    intro ⟨_, hhi⟩
    rw [hspecifier] at hhi
    rw [State.fetched_params]
    exact htrap.resolve_right (by omega)
  rw [step_of_running hh hf, exec_of_illFormed hill hservice, State.fetched_ir, hb]

end Sys2Proof.Proofs

/-! PROOFS, scope. The assembler (spec/30_encoding.md R76 to R89): what it makes of a source without symbols, and where
`.BURN` puts the code after it. -/

namespace Sys2Proof.Proofs

open Sys2Proof.Machine Sys2Proof.Claims

/-! ### Values of operands (R76) -/

/-- A bind of an operation that ends in a value goes on with that value. -/
theorem bind_of_eq_ok {ε α β : Type} {e : Except ε α} {a : α} (h : e = .ok a) (f : α → Except ε β) :
    (e >>= f) = f a := by
  rw [h]
  rfl

theorem inRange_of_le {lo hi value : Int} (hlo : lo ≤ value) (hhi : value ≤ hi) : inRange lo hi value = .ok value :=
  if_pos ⟨hlo, hhi⟩

section
variable {lookup : Symbol → Except AsmError Int} {o : Operand} {k : Int}

theorem value_decimal (hlo : -32768 ≤ k) (hhi : k ≤ 65535) : (Operand.decimal k).value lookup = .ok k :=
  inRange_of_le hlo hhi

theorem wordValue_of_value (hk : o.value lookup = .ok k) (hlo : -32768 ≤ k) (hhi : k ≤ 65535) :
    o.wordValue lookup = .ok (BitVec.ofInt 16 k) :=
  (bind_of_eq_ok hk _).trans (bind_of_eq_ok (inRange_of_le hlo hhi) _)

theorem natValue_decimal {n : Nat} (h : n ≤ 65535) : (Operand.decimal n).natValue lookup = .ok n :=
  (bind_of_eq_ok (value_decimal (by omega) (by omega)) _).trans
    (bind_of_eq_ok (inRange_of_le (by omega) (by omega)) _)

end

/-! ### What a statement emits (R77, R81 to R86) -/

theorem length_encode_of_unary {i : Instr} (h : operandSpecifierOf i = none) : (encode i).length = 1 := by
  unfold encode
  rw [h]
  rfl

section
variable (table : SymbolTable) (shift : Int)

theorem bytes_unary {i : Instr} (hwf : i.wellFormed = true) (hunary : operandSpecifierOf i = none) :
    (Body.unary i).bytes table shift = .ok (encode i) := by
  rw [Body.bytes, instrBytes, hwf, length_encode_of_unary hunary]
  rfl

theorem bytes_byte_decimal {k : Int} (hlo : -128 ≤ k) (hhi : k ≤ 255) :
    (Body.byte (.decimal k)).bytes table shift = .ok [BitVec.ofInt 8 k] :=
  (bind_of_eq_ok (value_decimal (by omega) (by omega)) _).trans (bind_of_eq_ok (inRange_of_le hlo hhi) _)

theorem bytes_word {o : Operand} {k : Int} (hk : o.value (table.lookup shift) = .ok k) (hlo : -32768 ≤ k)
    (hhi : k ≤ 65535) : (Body.word o).bytes table shift = .ok (wordBytes (BitVec.ofInt 16 k)) :=
  bind_of_eq_ok (wordValue_of_value hk hlo hhi) _

theorem bytes_addrss {name : Symbol} {k : Int} (hk : table.lookup shift name = .ok k) :
    (Body.addrss name).bytes table shift = .ok (wordBytes (BitVec.ofInt 16 k)) :=
  bind_of_eq_ok hk _

theorem bytes_block_decimal {n : Nat} (h : n ≤ 65535) :
    (Body.block (.decimal n)).bytes table shift = .ok (List.replicate n 0x00) :=
  bind_of_eq_ok (natValue_decimal h) _

theorem bytes_equate_decimal {k : Int} (hlo : -32768 ≤ k) (hhi : k ≤ 65535) :
    (Body.equate (.decimal k)).bytes table shift = .ok [] :=
  bind_of_eq_ok (value_decimal hlo hhi) _

theorem bytesOf_cons {st : Statement} {rest : List Statement} {here after : List Byte}
    (hhere : st.body.bytes table shift = .ok here) (hafter : bytesOf table shift rest = .ok after) :
    bytesOf table shift (st :: rest) = .ok (here ++ after) := by
  rw [bytesOf, hhere, hafter]
  rfl

end

/-! ### A source without symbols (R89) -/

theorem symbolsFrom_of_unlabelled {statements : List Statement} (h : ∀ st ∈ statements, st.label = none)
    (known : SymbolTable) (offset : Except AsmError Nat) : symbolsFrom known offset statements = [] := by
  induction statements generalizing offset with
  | nil => rfl
  | cons st rest ih =>
    obtain ⟨hst, hrest⟩ := List.forall_mem_cons.mp h
    rw [symbolsFrom, hst]
    exact ih hrest _

theorem symbolTable_of_unlabelled {statements : List Statement} (h : ∀ st ∈ statements, st.label = none) :
    symbolTable statements = [] := by
  unfold symbolTable settleSymbols
  rw [symbolsFrom_of_unlabelled h]
  rfl

theorem assembleApplication_of_ok {table : SymbolTable} {statements : List Statement} {bytes : List Byte}
    (hbytes : bytesOf table 0 statements = .ok bytes) (hfits : bytes.length ≤ 65536) :
    assembleApplication table statements = .ok { origin := 0, bytes := bytes } :=
  (bind_of_eq_ok hbytes _).trans (if_neg (by omega))

section
variable (i : Instr) (k j : Int) (count : Nat) (codes : List Byte)

/-- One statement of each kind that emits bytes without naming a symbol, in the order of R77 and R81 to R84. -/
def plainSource : List Statement :=
  [⟨none, .unary i⟩, ⟨none, .byte (.decimal k)⟩, ⟨none, .word (.decimal j)⟩, ⟨none, .block (.decimal count)⟩,
    ⟨none, .ascii codes⟩, ⟨none, .finish⟩]

/-- What `plainSource` is to emit, statement by statement. -/
def plainBytes : List Byte :=
  encode i ++ [BitVec.ofInt 8 k] ++ wordBytes (BitVec.ofInt 16 j) ++ List.replicate count 0x00 ++ codes

variable {i k j count codes}

theorem symbolTable_plainSource : symbolTable (plainSource i k j count codes) = [] :=
  symbolTable_of_unlabelled (by simp [plainSource])

theorem bytesOf_plainSource (table : SymbolTable) (shift : Int) (hwf : i.wellFormed = true)
    (hunary : operandSpecifierOf i = none) (hklo : -128 ≤ k) (hkhi : k ≤ 255) (hjlo : -32768 ≤ j) (hjhi : j ≤ 65535)
    (hcount : count ≤ 65535) :
    bytesOf table shift (plainSource i k j count codes) = .ok (plainBytes i k j count codes) := by
  have h : bytesOf table shift (plainSource i k j count codes) = .ok (encode i ++ ([BitVec.ofInt 8 k] ++
      (wordBytes (BitVec.ofInt 16 j) ++ (List.replicate count 0x00 ++ (codes ++ ([] ++ [])))))) :=
    bytesOf_cons _ _ (bytes_unary _ _ hwf hunary) <| bytesOf_cons _ _ (bytes_byte_decimal _ _ hklo hkhi) <|
      bytesOf_cons _ _ (bytes_word _ _ (value_decimal hjlo hjhi) hjlo hjhi) <|
      bytesOf_cons _ _ (bytes_block_decimal _ _ hcount) <| bytesOf_cons _ _ rfl <| bytesOf_cons _ _ rfl rfl
  rw [h, plainBytes]
  simp only [List.append_assoc, List.append_nil]

theorem length_plainBytes (hunary : operandSpecifierOf i = none) :
    (plainBytes i k j count codes).length = 4 + count + codes.length := by
  simp [plainBytes, wordBytes, length_encode_of_unary hunary]
  omega

end

/-- Settles O58: there are no symbols to settle and no `.BURN`, so the object program is what the six statements emit,
and that fits. -/
theorem directivesEmitTheirBytes : Obligations.DirectivesEmitTheirBytes := by
  intro i k j count codes hwf hunary hklo hkhi hjlo hjhi hfits
  have hbytes := bytesOf_plainSource (codes := codes) [] 0 hwf hunary hklo hkhi hjlo hjhi
    (show count ≤ 65535 by omega)
  have hlength := length_plainBytes (k := k) (j := j) (count := count) (codes := codes) hunary
  calc assemble (plainSource i k j count codes)
      = assembleApplication (symbolTable (plainSource i k j count codes)) (plainSource i k j count codes) := rfl
    _ = assembleApplication [] (plainSource i k j count codes) := by rw [symbolTable_plainSource]
    _ = .ok { origin := 0, bytes := plainBytes i k j count codes } := assembleApplication_of_ok hbytes (by omega)

/-! ### Code after `.BURN` (R88) -/

/-- What assembling a source with a `.BURN` that succeeds has done: the code fits below the operand, and starts so that
its last byte is there. -/
theorem assembleBurned_eq_ok {table : SymbolTable} {before after : List Statement} {o : Operand} {p : ObjectProgram}
    (h : assembleBurned table before o after = .ok p) :
    ∃ last start length, o.natValue (table.lookup 0) = .ok last ∧ reservedBytes (table.lookup 0) before = .ok start ∧
      reservedBytes (table.lookup 0) after = .ok length ∧ length ≤ last + 1 ∧
      p.origin = BitVec.ofNat 16 (last + 1 - length) ∧
      bytesOf table ((last + 1 - length : Nat) - (start : Int)) after = .ok p.bytes := by
  obtain ⟨last, hlast, h⟩ := bind_eq_ok h
  obtain ⟨start, hstart, h⟩ := bind_eq_ok h
  obtain ⟨length, hlength, h⟩ := bind_eq_ok h
  split at h
  · exact nomatch h
  · obtain ⟨_, -, h⟩ := bind_eq_ok h
    obtain ⟨bytes, hbytes, h⟩ := bind_eq_ok h
    cases Except.ok.inj h
    exact ⟨last, start, length, hlast, hstart, hlength, by omega, rfl, hbytes⟩

/-- Assembling a source with one `.BURN` that succeeds is `assembleBurned`. -/
theorem assemble_burn_eq_ok {before after : List Statement} {o : Operand} {label : Option Symbol} {p : ObjectProgram}
    (hbefore : ∀ st ∈ before, st.body.isBurn = false)
    (h : assemble (before ++ ⟨label, .burn o⟩ :: after) = .ok p) :
    assembleBurned (symbolTable (before ++ ⟨label, .burn o⟩ :: after)) before o after = .ok p := by
  obtain ⟨_, -, h⟩ := bind_eq_ok h
  obtain ⟨_, -, h⟩ := bind_eq_ok h
  rw [splitAtBurn_append hbefore] at h
  dsimp only at h
  split at h
  · exact nomatch h
  · exact h

/-- `.BURN` at a decimal address: the byte after the last is the one after that address. -/
theorem assembleBurned_ends {table : SymbolTable} {before after : List Statement} {last : Nat} {p : ObjectProgram}
    (hlast : last ≤ 65535) (h : assembleBurned table before (.decimal last) after = .ok p) :
    (p.origin.toNat + p.bytes.length) % 65536 = (last + 1) % 65536 := by
  obtain ⟨last', start, length, hlast', -, hlength, hfits, horigin, hbytes⟩ := assembleBurned_eq_ok h
  obtain rfl : last = last' := Except.ok.inj ((natValue_decimal hlast).symm.trans hlast')
  rw [bytesOf_length hlength hbytes, horigin, BitVec.toNat_ofNat]
  omega

/-- A shifted value is a word value, and the word is the value's word moved by the shift. -/
theorem lookup_shifted {table : SymbolTable} {name found : Symbol} {value : Int} (shift : Int)
    (hfind : table.find? (fun row => row.1 == name) = some (found, value)) (hlo : -32768 ≤ value)
    (hhi : value ≤ 65535) :
    ∃ k, table.lookup shift name = .ok k ∧ -32768 ≤ k ∧ k ≤ 65535 ∧
      BitVec.ofInt 16 k = BitVec.ofInt 16 (value + shift) := by
  unfold SymbolTable.lookup
  rw [hfind]
  by_cases hshift : shift = 0
  · exact ⟨value, by simp [hshift], hlo, hhi, by simp [hshift]⟩
  · refine ⟨(value + shift) % 65536, by simp [hshift], by omega, by omega, ?_⟩
    exact BitVec.eq_of_toInt_eq (by rw [BitVec.toInt_ofInt, BitVec.toInt_ofInt]; exact Int.emod_bmod _ (2 ^ 16))

/-- A value as a word, shifted from one address to another. -/
theorem ofInt_add_sub (value : Int) (start origin : Nat) :
    BitVec.ofInt 16 (value + ((origin : Int) - start)) =
      BitVec.ofInt 16 value + BitVec.ofNat 16 origin - BitVec.ofNat 16 start := by
  refine eq_sub_of_add_eq ?_
  rw [← BitVec.ofInt_natCast, ← BitVec.ofInt_natCast, ← BitVec.ofInt_add, ← BitVec.ofInt_add, add_assoc,
    sub_add_cancel]

theorem assembleBurned_of_ok {table : SymbolTable} {before after : List Statement} {o : Operand}
    {last start length : Nat} {unused bytes : List Byte} (hlast : o.natValue (table.lookup 0) = .ok last)
    (hstart : reservedBytes (table.lookup 0) before = .ok start)
    (hlength : reservedBytes (table.lookup 0) after = .ok length) (hfits : length ≤ last + 1)
    (hbefore : bytesOf table ((last + 1 - length : Nat) - (start : Int)) before = .ok unused)
    (hafter : bytesOf table ((last + 1 - length : Nat) - (start : Int)) after = .ok bytes) :
    assembleBurned table before o after = .ok { origin := BitVec.ofNat 16 (last + 1 - length), bytes := bytes } :=
  (bind_of_eq_ok hlast _).trans <| (bind_of_eq_ok hstart _).trans <| (bind_of_eq_ok hlength _).trans <|
    (if_neg (by omega)).trans <| (bind_of_eq_ok hbefore _).trans (bind_of_eq_ok hafter _)

theorem assemble_burn {before after : List Statement} {o : Operand} {label : Option Symbol}
    (hfinish : checkFinish (before ++ ⟨label, .burn o⟩ :: after) = .ok ())
    (hlabels : checkLabels [] (before ++ ⟨label, .burn o⟩ :: after) = .ok ())
    (hbefore : ∀ st ∈ before, st.body.isBurn = false) (hafter : (after.any fun st => st.body.isBurn) = false) :
    assemble (before ++ ⟨label, .burn o⟩ :: after) =
      assembleBurned (symbolTable (before ++ ⟨label, .burn o⟩ :: after)) before o after := by
  refine (bind_of_eq_ok hfinish _).trans <| (bind_of_eq_ok hlabels _).trans ?_
  rw [splitAtBurn_append hbefore]
  dsimp only
  rw [hafter, if_neg Bool.false_ne_true]

/-! ### The shift of an address and of a constant (R88's last sentence) -/

section
variable (here constant : Symbol) (count last : Nat) (k : Int)

/-- Before `.BURN`: a constant, and a block that decides how far the code moves. -/
def beforeBurn : List Statement := [⟨some constant, .equate (.decimal k)⟩, ⟨none, .block (.decimal count)⟩]

/-- After `.BURN`: the code emits its own address and the constant. -/
def afterBurn : List Statement :=
  [⟨some here, .addrss here⟩, ⟨none, .word (.symbol constant)⟩, ⟨none, .finish⟩]

/-- The source of the second clause of O59. -/
def burnSource : List Statement :=
  beforeBurn constant count k ++ ⟨none, .burn (.decimal last)⟩ :: afterBurn here constant

/-- The symbols of `burnSource` before the shift. -/
def burnSymbols : SymbolTable := [(constant, k), (here, count)]

variable {here constant count last k}

/-- One round settles both symbols: neither value rests on a symbol. -/
theorem symbolsFrom_burnSource (hcount : count ≤ 65535) (hklo : -32768 ≤ k) (hkhi : k ≤ 65535)
    (known : SymbolTable) :
    symbolsFrom known (.ok 0) (burnSource here constant count last k) = burnSymbols here constant count k := by
  simp [burnSource, beforeBurn, afterBurn, burnSymbols, symbolsFrom, Body.labelValue, Body.size,
    value_decimal hklo hkhi, natValue_decimal hcount, bind, Except.bind, pure, Except.pure,
    Int.emod_eq_of_lt (Int.natCast_nonneg count) (show (count : Int) < 65536 by omega)]

/-- The first round settles the symbols, the second gives the same ones and ends. -/
theorem symbolTable_burnSource (hcount : count ≤ 65535) (hklo : -32768 ≤ k) (hkhi : k ≤ 65535) :
    symbolTable (burnSource here constant count last k) = burnSymbols here constant count k := by
  have hround := symbolsFrom_burnSource (here := here) (constant := constant) (last := last) hcount hklo hkhi
  show settleSymbols _ (5 + 1 + 1) [] = _
  rw [settleSymbols, hround, if_neg (by simp [burnSymbols]), settleSymbols, hround, if_pos rfl]

theorem checkLabels_burnSource (hhere : validSymbol here = true) (hconstant : validSymbol constant = true)
    (hne : here ≠ constant) : checkLabels [] (burnSource here constant count last k) = .ok () := by
  simp [burnSource, beforeBurn, afterBurn, checkLabels, hhere, hconstant, hne]

theorem reservedBytes_beforeBurn {lookup : Symbol → Except AsmError Int} (hcount : count ≤ 65535) :
    reservedBytes lookup (beforeBurn constant count k) = .ok count := by
  simp [beforeBurn, reservedBytes, Body.size, natValue_decimal hcount, bind, Except.bind, pure, Except.pure]

theorem bytesOf_beforeBurn {table : SymbolTable} {shift : Int} (hcount : count ≤ 65535) (hklo : -32768 ≤ k)
    (hkhi : k ≤ 65535) :
    bytesOf table shift (beforeBurn constant count k) = .ok ([] ++ (List.replicate count 0x00 ++ [])) :=
  bytesOf_cons _ _ (bytes_equate_decimal _ _ hklo hkhi) <| bytesOf_cons _ _ (bytes_block_decimal _ _ hcount) rfl

/-- Both words move by the shift, from `count` to `origin`: the address becomes `origin`. -/
theorem bytesOf_afterBurn {origin : Nat} (hne : here ≠ constant) (hcount : count ≤ 65535) (hklo : -32768 ≤ k)
    (hkhi : k ≤ 65535) :
    bytesOf (burnSymbols here constant count k) ((origin : Int) - count) (afterBurn here constant) =
      .ok (wordBytes (BitVec.ofNat 16 origin) ++
        (wordBytes (BitVec.ofInt 16 k + BitVec.ofNat 16 origin - BitVec.ofNat 16 count) ++ ([] ++ []))) := by
  obtain ⟨h, hlookup, -, -, hword⟩ := lookup_shifted (table := burnSymbols here constant count k) (name := here)
    (found := here) (value := count) ((origin : Int) - count) (by simp [burnSymbols, hne.symm]) (by omega) (by omega)
  obtain ⟨c, hlookup', hclo, hchi, hword'⟩ := lookup_shifted (table := burnSymbols here constant count k)
    (name := constant) (found := constant) (value := k) ((origin : Int) - count) (by simp [burnSymbols]) hklo hkhi
  rw [add_sub_cancel, BitVec.ofInt_natCast] at hword
  rw [ofInt_add_sub] at hword'
  rw [← hword', ← hword]
  exact bytesOf_cons _ _ (bytes_addrss _ _ hlookup) <|
    bytesOf_cons _ _ (bytes_word _ _ hlookup' hclo hchi) <| bytesOf_cons _ _ rfl rfl

end

/-- Settles O59: the code ends at the operand because it is as long as its statements reserve; the emitted words are the
settled values of the two symbols, shifted from the end of the block to the origin. -/
theorem burnedCodeEndsAtItsAddress : Obligations.BurnedCodeEndsAtItsAddress := by
  refine ⟨?ends, ?shifted⟩
  case ends =>
    intro before after last p hlast hbefore h
    exact assembleBurned_ends hlast (assemble_burn_eq_ok hbefore h)
  case shifted =>
    intro here constant count last k origin hhere hconstant hne hcount hlo hhi hklo hkhi horigin
    subst horigin
    calc assemble (burnSource here constant count last k)
        = assembleBurned (symbolTable (burnSource here constant count last k)) (beforeBurn constant count k)
            (.decimal last) (afterBurn here constant) :=
          assemble_burn rfl (checkLabels_burnSource hhere hconstant hne) (by simp [beforeBurn, Body.isBurn]) rfl
      _ = assembleBurned (burnSymbols here constant count k) (beforeBurn constant count k) (.decimal last)
            (afterBurn here constant) := by rw [symbolTable_burnSource hcount hklo hkhi]
      _ = _ := assembleBurned_of_ok (length := 4) (natValue_decimal hhi) (reservedBytes_beforeBurn hcount) rfl
            (by omega) (bytesOf_beforeBurn hcount hklo hkhi) (bytesOf_afterBurn hne hcount hklo hkhi)

end Sys2Proof.Proofs

/-! PROOFS, scope. The ASCII table (spec/30_encoding.md R90). -/

namespace Sys2Proof.Proofs

open Sys2Proof.Machine

theorem asciiCode_eq_some_iff (c : Char) (b : Byte) : asciiCode c = some b ↔ c.toNat = b.toNat ∧ b.toNat < 128 := by
  unfold asciiCode
  split
  · next h =>
    rw [Option.some.injEq, ← BitVec.toNat_inj, BitVec.toNat_ofNat]
    omega
  · next h => exact ⟨nofun, fun ⟨hc, hb⟩ => absurd hb (by omega)⟩

theorem asciiRow_printable {b : Byte} (hlo : 32 ≤ b.toNat) (hhi : b.toNat < 127) :
    asciiRow b = some (.printable (Char.ofNat b.toNat)) := by
  unfold asciiRow
  dsimp only
  rw [if_neg (by omega), if_pos hhi]

theorem asciiRow_of_not_ascii {b : Byte} (h : 128 ≤ b.toNat) : asciiRow b = none := by
  unfold asciiRow
  dsimp only
  rw [if_neg (by omega), if_neg (by omega), if_neg (by omega)]

/-- Settles O60: a code is the character's number, and the bounds of the table's parts decide its rows. -/
theorem asciiCodesAreTheCharacters : Obligations.AsciiCodesAreTheCharacters :=
  ⟨asciiCode_eq_some_iff, fun _ => asciiRow_printable, fun _ => asciiRow_of_not_ascii⟩

end Sys2Proof.Proofs

/-! PROOFS, scope. STOP, RETTR, MOVSPA and MOVFLGA (spec/40_control.md R100 to R103), and that RETTR undoes trap entry
(spec/60_exceptions.md R203 to R205). -/

namespace Sys2Proof.Proofs

open Sys2Proof.Machine Sys2Proof.Claims

/-! ### STOP and RETTR -/

/-- Settles O3: the state STOP leaves is halted, and a halted machine has no next state. -/
theorem stopEndsTheRun : Obligations.StopEndsTheRun :=
  ⟨rfl, fun _ => ⟨_, rfl, rfl, fun u => endedRunStaysAsItIs.1 _ u (.inl rfl)⟩⟩

/-- Settles O4: RETTR is the return from the trap, which reads the frame at the old SP. -/
theorem rettrRestoresTheFrame : Obligations.RettrRestoresTheFrame := ⟨rfl, fun _ => rfl⟩

/-! ### The flags in a byte (R103, R204) -/

/-- The bits of the byte that MOVFLGA puts into A and trap entry into its frame: C, V, Z and N from bit 0 upward. -/
theorem flagsByte_bits (s : State) :
    (0b0000#4 ++ s.flagsNibble : Byte).getLsbD 3 = s.n ∧ (0b0000#4 ++ s.flagsNibble : Byte).getLsbD 2 = s.z ∧
      (0b0000#4 ++ s.flagsNibble : Byte).getLsbD 1 = s.v ∧ (0b0000#4 ++ s.flagsNibble : Byte).getLsbD 0 = s.c := by
  unfold State.flagsNibble
  generalize s.n = n, s.z = z, s.v = v, s.c = c
  revert n z v c
  decide

theorem getLsbD_wordOf {i : Nat} (hi lo : Byte) (h : i < 8) : (wordOf hi lo).getLsbD i = lo.getLsbD i := by
  unfold wordOf
  rw [BitVec.getLsbD_append, if_pos h]

/-- The upper half of a word's less significant byte. -/
theorem extractLsb'_wordOf_append (hi : Byte) (upper lower : BitVec 4) :
    (wordOf hi (upper ++ lower)).extractLsb' 4 4 = upper := by
  calc (wordOf hi (upper ++ lower)).extractLsb' 4 4
      = (loByte (wordOf hi (upper ++ lower))).extractLsb' 4 4 := by
        unfold loByte
        rw [BitVec.extractLsb'_extractLsb'_of_le (by decide)]
    _ = (upper ++ lower : Byte).extractLsb' 4 4 := by rw [loByte_wordOf]
    _ = upper := extractLsb'_append_left upper lower

/-- Settles O5: the word MOVFLGA writes is made of the byte `MOVFLGA_UPPER` chooses and the byte of the flags. -/
theorem movspaAndMovflgaWriteA : Obligations.MovspaAndMovflgaWriteA := by
  refine ⟨rfl, rfl, fun s => ⟨rfl, _, rfl, ?_⟩⟩
  obtain ⟨hn, hz, hv, hc⟩ := flagsByte_bits s
  refine ⟨?n, ?z, ?v, ?c, extractLsb'_wordOf_append _ _ _, ?upper⟩
  case n => rw [getLsbD_wordOf _ _ (by decide), hn]
  case z => rw [getLsbD_wordOf _ _ (by decide), hz]
  case v => rw [getLsbD_wordOf _ _ (by decide), hv]
  case c => rw [getLsbD_wordOf _ _ (by decide), hc]
  case upper => exact hiByte_wordOf _ _

/-! ### What a sequence of byte stores leaves to be read (R33 to R35) -/

theorem storeBytes_frame {cells : List (Word × Byte)} {s t : State} (h : storeBytes cells s = .ok t) :
    t = { s with mem := t.mem } := by
  induction cells generalizing s with
  | nil => cases h; rfl
  | cons cell rest ih =>
    obtain ⟨s', hstore, hrest⟩ := bind_eq_ok h
    rw [ih hrest, State.write1_frame hstore]

theorem storeBytes_read1_of_notMem {cells : List (Word × Byte)} {s t : State} {a : Word}
    (h : storeBytes cells s = .ok t) (ha : a ∉ cells.map Prod.fst) : t.read1 a = s.read1 a := by
  induction cells generalizing s with
  | nil => cases h; rfl
  | cons cell rest ih =>
    obtain ⟨s', hstore, hrest⟩ := bind_eq_ok h
    obtain ⟨hcell, ha⟩ := not_or.mp (mt List.mem_cons.mpr ha)
    rw [ih hrest ha, State.write1_read1 hstore, if_neg (fun hk => hcell hk.1)]

/-- Stores to different addresses outside ROM: each byte is the one stored to it, for no later store overwrites it. -/
theorem storeBytes_read1_of_mem {cells : List (Word × Byte)} {s t : State} (h : storeBytes cells s = .ok t)
    (hdistinct : (cells.map Prod.fst).Nodup) (hram : ∀ cell ∈ cells, ¬ InRom s cell.1) :
    ∀ cell ∈ cells, t.read1 cell.1 = cell.2 := by
  induction cells generalizing s with
  | nil => nofun
  | cons first rest ih =>
    obtain ⟨s', hstore, hrest⟩ := bind_eq_ok h
    obtain ⟨hfirst, hdistinct⟩ := List.nodup_cons.mp hdistinct
    obtain ⟨hramFirst, hram⟩ := List.forall_mem_cons.mp hram
    refine List.forall_mem_cons.mpr ⟨?_, ih hrest hdistinct fun cell hcell => ?_⟩
    · rw [storeBytes_read1_of_notMem hrest hfirst, State.write1_read1 hstore,
        if_pos ⟨rfl, inRom_eq_false_iff.mpr hramFirst⟩]
    · rw [inRom_congr (streamsAdvance_of_write1 hstore).params]
      exact hram cell hcell

/-- A word is read where the two cells of its store hold their bytes (R32, R34). -/
theorem read2_of_wordCells {s : State} {a w : Word} (h : ∀ cell ∈ wordCells a w, s.read1 cell.1 = cell.2) :
    s.read2 a = w := by
  obtain ⟨hhi, hlo⟩ := List.forall_mem_cons.mp h
  calc s.read2 a = wordOf (s.read1 a) (s.read1 (a + 1)) := rfl
    _ = wordOf (hiByte w) (loByte w) := by rw [hhi, hlo _ (List.mem_singleton_self _)]
    _ = w := wordOf_hiByte_loByte w

/-! ### The frame of a trap (R204) -/

/-- How far below the word at 0xFFFA trap entry stores, in the order of R203's pseudocode. -/
def frameDistances : List Word := [1, 3, 2, 5, 4, 7, 6, 9, 8, 10]

theorem frameDistances_bounds : ∀ d ∈ frameDistances, 1 ≤ d.toNat ∧ d.toNat ≤ 10 := by
  simp [frameDistances]

theorem frameStores_eq (s : State) : frameStores s = frameDistances.map (s.read2 0xFFFA - ·) := rfl

theorem frameStores_nodup (s : State) : (frameStores s).Nodup := by
  have hinj : Function.Injective (s.read2 0xFFFA - ·) := fun d d' h => by bv_omega
  rw [frameStores_eq]
  exact List.Nodup.map hinj (by decide)

theorem sub_eq_sub_ten_add (t : Word) {d : Word} (h : d.toNat ≤ 10) :
    t - d = t - 10 + BitVec.ofNat 16 (10 - d.toNat) := by bv_omega

/-- The addresses of the frame, counted upward from its lowest byte as R204 does. -/
theorem exists_offset_of_mem_frameStores {s : State} {a : Word} (h : a ∈ frameStores s) :
    ∃ k, k < 10 ∧ a = s.read2 0xFFFA - 10 + BitVec.ofNat 16 k := by
  rw [frameStores_eq] at h
  obtain ⟨d, hd, rfl⟩ := List.mem_map.mp h
  obtain ⟨hlo, hhi⟩ := frameDistances_bounds d hd
  exact ⟨10 - d.toNat, by omega, sub_eq_sub_ten_add _ hhi⟩

/-- `u` holds at `base` the frame of R204 for the trap taken in `s`, as RETTR reads it (R101). The trapped specifier at
offset 9 is not part of it. -/
structure HoldsFrame (s u : State) (base : Word) : Prop where
  flags : u.read1 base = 0b0000#4 ++ s.flagsNibble
  a : u.read2 (base + 1) = s.a
  x : u.read2 (base + 3) = s.x
  pc : u.read2 (base + 5) = s.pc
  sp : u.read2 (base + 7) = s.sp

/-- The stores of a trap entry outside ROM leave the frame: its ten bytes have ten addresses. -/
theorem holdsFrame_of_storeBytes {s framed : State} (h : storeBytes (frameCells s) s = .ok framed)
    (hram : ∀ k, k < 10 → ¬ InRom s (s.read2 0xFFFA - 10 + BitVec.ofNat 16 k)) :
    HoldsFrame s framed (s.read2 0xFFFA - 10) := by
  have hcells : ∀ cell ∈ frameCells s, framed.read1 cell.1 = cell.2 := by
    refine storeBytes_read1_of_mem h (frameCells_addresses s ▸ frameStores_nodup s) fun cell hcell => ?_
    obtain ⟨k, hk, ha⟩ := exists_offset_of_mem_frameStores (frameCells_addresses s ▸ List.mem_map_of_mem hcell)
    exact ha ▸ hram k hk
  have hbase : ∀ t k : Word, t - 10 + k = t - (10 - k) := fun t k => by bv_omega
  simp only [frameCells, List.forall_mem_append, List.forall_mem_singleton] at hcells
  obtain ⟨⟨⟨⟨⟨-, hsp⟩, hpc⟩, hx⟩, ha⟩, hflags⟩ := hcells
  refine ⟨hflags, ?_, ?_, ?_, ?_⟩
  · exact hbase _ 1 ▸ read2_of_wordCells ha
  · exact hbase _ 3 ▸ read2_of_wordCells hx
  · exact hbase _ 5 ▸ read2_of_wordCells hpc
  · exact hbase _ 7 ▸ read2_of_wordCells hsp

theorem HoldsFrame.of_mem_eq {s u u' : State} {base : Word} (h : HoldsFrame s u base) (hmem : u'.mem = u.mem) :
    HoldsFrame s u' base := by
  obtain ⟨hflags, ha, hx, hpc, hsp⟩ := h
  constructor <;> simpa only [State.read1_congr hmem, State.read2_congr hmem]

/-- Trap entry outside ROM leaves the frame at its SP, and has written SP, PC and memory alone (R203). -/
theorem holdsFrame_of_takeTrap {s t : State} (h : takeTrap s = .ok t)
    (hram : ∀ k, k < 10 → ¬ InRom s (s.read2 0xFFFA - 10 + BitVec.ofNat 16 k)) :
    HoldsFrame s t t.sp ∧ t = { s with mem := t.mem, sp := t.sp, pc := t.pc } := by
  obtain ⟨framed, hstores, ht⟩ := bind_eq_ok ((takeTrap_eq_storeBytes s).symm.trans h)
  obtain rfl := Except.ok.inj ht
  refine ⟨(holdsFrame_of_storeBytes hstores hram).of_mem_eq rfl, ?_⟩
  rw [storeBytes_frame hstores]

/-- RETTR with SP at a frame gives back what the frame holds (R101, R205). -/
theorem returnFromTrap_of_holdsFrame {s u : State} (h : HoldsFrame s u u.sp) :
    returnFromTrap u =
      { u with n := s.n, z := s.z, v := s.v, c := s.c, a := s.a, x := s.x, pc := s.pc, sp := s.sp } := by
  obtain ⟨hflags, ha, hx, hpc, hsp⟩ := h
  obtain ⟨hn, hz, hv, hc⟩ := flagsByte_bits s
  unfold returnFromTrap
  simp only [hflags, hn, hz, hv, hc, ha, hx, hpc, hsp]

/-- Settles O26: trap entry leaves the frame at the SP that RETTR reads it from, and writes no register that RETTR does
not restore. -/
theorem trapReturnUndoesTrapEntry : Obligations.TrapReturnUndoesTrapEntry := by
  intro i s t hi hmodel hram h
  have htrap : takeTrap s = .ok t := finish_eq_next ((exec_of_isTrap_hardware hi hmodel).symm.trans h)
  obtain ⟨hholds, hframe⟩ := holdsFrame_of_takeTrap htrap hram
  calc exec .rettr t = .next (returnFromTrap t) := rfl
    _ = .next { s with mem := t.mem } := by rw [returnFromTrap_of_holdsFrame hholds, hframe]

end Sys2Proof.Proofs

/-! PROOFS, scope. The branches and CALL (spec/41_branch_call.md R109 to R119), and that RETn returns behind the CALL
(spec/45_stack.md R145). -/

namespace Sys2Proof.Proofs

open Sys2Proof.Machine Sys2Proof.Claims

/-! ### The bytes of a non-unary instruction with a 1-bit mode (R53, R55, R68) -/

theorem append_branchField (op : BitVec 7) (a : BranchMode) : (op ++ a.field : Byte) = (op ++ 0#1) + branchBit a := by
  cases a with
  | i => exact (BitVec.add_zero _).symm
  | x => revert op; decide

/-- The specifier is that of the row's first mode plus the bit of the mode; the operand specifier follows, its more
significant byte first. -/
theorem encode_of_branchField {i : Instr} {op : BitVec 7} {first : Byte} {a : BranchMode} {w : Word}
    (hspecifier : specifierOf i = op ++ a.field) (hoperand : operandSpecifierOf i = some w)
    (hfirst : op ++ 0#1 = first) :
    encode i = [first + branchBit a, w.extractLsb' 8 8, w.extractLsb' 0 8] := by
  unfold encode
  rw [hoperand, hspecifier, append_branchField, hfirst]
  rfl

/-! ### Branches (R109 to R118) -/

/-- The model's target is the one the statements say. -/
theorem branchTarget_eq_target (a : BranchMode) (w : Word) (s : State) : branchTarget a w s = target a w s := by
  cases a with
  | i => rfl
  | x => rfl

/-- A branch with the condition `p` on the flags. -/
theorem branchIf_of_iff {taken : Bool} {p : Prop} [Decidable p] (h : taken = true ↔ p) (a : BranchMode) (w : Word)
    (s : State) : branchIf taken a w s = .next (if p then { s with pc := target a w s } else s) := by
  unfold branchIf
  rw [branchTarget_eq_target]
  simp only [h]

/-- Settles O6: the nine rows differ in their bit pattern and in the condition they give to the one branch operation. -/
theorem branchesTestTheirFlags : Obligations.BranchesTestTheirFlags := by
  refine ⟨fun a w => ?bytes, fun a w s => ⟨?br, ?brle, ?brlt, ?breq, ?brne, ?brge, ?brgt, ?brv, ?brc⟩⟩
  case bytes => refine ⟨?_, ?_, ?_, ?_, ?_, ?_, ?_, ?_, ?_⟩ <;> exact encode_of_branchField rfl rfl rfl
  case br => exact branchIf_of_iff (p := True) (by simp) a w s
  case brle => exact branchIf_of_iff (by simp) a w s
  case brlt => exact branchIf_of_iff Iff.rfl a w s
  case breq => exact branchIf_of_iff Iff.rfl a w s
  case brne => exact branchIf_of_iff (by simp) a w s
  case brge => exact branchIf_of_iff (by simp) a w s
  case brgt => exact branchIf_of_iff (by simp) a w s
  case brv => exact branchIf_of_iff Iff.rfl a w s
  case brc => exact branchIf_of_iff Iff.rfl a w s

/-! ### CALL (R119) -/

/-- CALL has a next state if the store of the return address raises no fault; the lowered SP has no part in that. -/
theorem execCall_completes {s : State} (h : CanStore s (s.sp - 2)) (h' : CanStore s (s.sp - 2 + 1)) (a : BranchMode)
    (w : Word) : ∃ t, execCall a w s = .next t := by
  obtain ⟨pushed, hpush⟩ :=
    State.write2_completes (s := { s with sp := s.sp - 2 }) s.pc (canStore_iff.mp h) (canStore_iff.mp h')
  refine ⟨{ pushed with pc := branchTarget a w s }, ?_⟩
  unfold execCall
  dsimp only
  rw [hpush]
  rfl

/-- What a CALL that completes leaves: the target is that of the old state, and the return address is stored at the
new SP, but for bytes in ROM. -/
theorem execCall_pushes {a : BranchMode} {w : Word} {s t : State} (h : execCall a w s = .next t) :
    t = { s with sp := s.sp - 2, pc := target a w s, mem := t.mem } ∧ StoresWord s t (s.sp - 2) s.pc := by
  obtain ⟨pushed, hpush, ht⟩ := bind_eq_ok (finish_eq_next h)
  have hstores : StoresWord s pushed (s.sp - 2) s.pc := storesWord_of_write2 (s := { s with sp := s.sp - 2 }) hpush
  obtain rfl := Except.ok.inj ht
  refine ⟨?_, hstores⟩
  rw [State.write2_frame hpush, branchTarget_eq_target]

/-- Settles O7: CALL completes where its store does, and what it then leaves is said once for every CALL. -/
theorem callPushesTheReturnAddress : Obligations.CallPushesTheReturnAddress := by
  refine ⟨fun a w => encode_of_branchField rfl rfl rfl, fun a w s h h' => ?_⟩
  obtain ⟨t, hcall⟩ := execCall_completes h h' a w
  exact ⟨t, hcall, execCall_pushes hcall⟩

/-! ### RETn behind a CALL (R145) -/

/-- A word stored outside ROM is read back (R32, R34). -/
theorem read2_of_storesWord {s t : State} {a w : Word} (h : StoresWord s t a w) (ha : ¬ InRom s a)
    (ha' : ¬ InRom s (a + 1)) : t.read2 a = w := by
  obtain ⟨hhi, -, hlo, -, -⟩ := h
  exact read2_of_wordCells (List.forall_mem_cons.mpr ⟨hhi ha, List.forall_mem_singleton.mpr (hlo ha')⟩)

/-- RETn that finds a return address above the `n` bytes it frees goes there, and leaves SP above the address. -/
theorem execRetn_of_read2 {n : BitVec 3} {u : State} {base ret : Word}
    (hsp : u.sp = base - BitVec.ofNat 16 n.toNat) (hret : u.read2 base = ret) :
    execRetn n u = .next { u with pc := ret, sp := base + 2 } := by
  have hbase : u.sp + n.setWidth 16 = base := by
    rw [hsp, BitVec.ofNat_toNat, BitVec.sub_add_cancel]
  unfold execRetn
  dsimp only
  rw [hbase, hret]

/-- Settles O9: the word at the SP that CALL leaves is the return address, and RETn takes SP to 2 above it. -/
theorem retnReturnsBehindTheCall : Obligations.RetnReturnsBehindTheCall := by
  intro a w n s t u hram hram' hcall hsp hkept
  obtain ⟨hframe, hstores⟩ := execCall_pushes hcall
  have htsp : t.sp = s.sp - 2 := by rw [hframe]
  have hret : u.read2 t.sp = s.pc := by rw [hkept, htsp, read2_of_storesWord hstores hram hram']
  have hback : t.sp + 2 = s.sp := by rw [htsp, BitVec.sub_add_cancel]
  calc exec (.retn n) u = .next { u with pc := s.pc, sp := t.sp + 2 } := execRetn_of_read2 hsp hret
    _ = .next { u with pc := s.pc, sp := s.sp } := by rw [hback]

end Sys2Proof.Proofs

/-! PROOFS, scope. NOTr, NEGr, ASLr, ASRr, ROLr and RORr (spec/42_unary_register.md R120 to R125), and that the rotates
are rotates of the 17 bits of C and the register. -/

namespace Sys2Proof.Proofs

open Sys2Proof.Machine Sys2Proof.Claims

/-! ### The bytes of a unary register instruction (R53, R55) -/

theorem append_regField (op : BitVec 7) (r : Reg) : (op ++ r.field : Byte) = (op ++ 0#1) + regBit r := by
  cases r with
  | a => exact (BitVec.add_zero _).symm
  | x => revert op; decide

/-- The specifier is that of the row for A plus the bit of the register; no operand specifier follows. -/
theorem encode_of_regField {i : Instr} {op : BitVec 7} {first : Byte} {r : Reg}
    (hspecifier : specifierOf i = op ++ r.field) (hoperand : operandSpecifierOf i = none) (hfirst : op ++ 0#1 = first) :
    encode i = [first + regBit r] := by
  unfold encode
  rw [hoperand, hspecifier, append_regField, hfirst]

/-! ### N and Z of a result (R150) -/

theorem getLsbD_15_iff_toInt_neg (w : Word) : w.getLsbD 15 = true ↔ w.toInt < 0 := by
  rw [← BitVec.msb_eq_getLsbD_last, BitVec.msb_eq_toInt, decide_eq_true_iff]

theorem setNZ_n_iff (s : State) (w : Word) : (s.setNZ w).n = true ↔ w.toInt < 0 := getLsbD_15_iff_toInt_neg w

theorem setNZ_z_iff (s : State) (w : Word) : (s.setNZ w).z = true ↔ w = 0 := beq_iff_eq

/-- The flags of an instruction that writes N and Z from its result `w` and leaves `v` and `c` in V and C. -/
theorem hasFlags_setNZ (s : State) (w : Word) {v c : Bool} {ov ca : Prop} (hv : v = true ↔ ov) (hc : c = true ↔ ca) :
    HasFlags { s.setNZ w with v := v, c := c } w ov ca :=
  ⟨setNZ_n_iff s w, setNZ_z_iff s w, hv, hc⟩

/-! ### NOTr and NEGr (R120, R121) -/

/-- Settles O10: the complement is the difference from all ones. -/
theorem notComplementsTheRegister : Obligations.NotComplementsTheRegister :=
  ⟨fun _ => encode_of_regField rfl rfl rfl, fun r s =>
    ⟨_, ~~~(s.reg r), rfl, (BitVec.allOnes_sub_eq_not _).symm, rfl, setNZ_n_iff _ _, setNZ_z_iff _ _⟩⟩

/-- Settles O11: C is the old C. -/
theorem negNegatesTheRegister : Obligations.NegNegatesTheRegister := by
  refine ⟨fun _ => encode_of_regField rfl rfl rfl, fun r s =>
    ⟨_, 0 - s.reg r, rfl, BitVec.zero_sub _, rfl, hasFlags_setNZ _ _ beq_iff_eq ?carry⟩⟩
  case carry => rw [State.setNZ_c, State.setReg_c]

/-! ### ASLr (R122) -/

theorem getLsbD_15_iff_le_toNat (w : Word) : w.getLsbD 15 = true ↔ 32768 ≤ w.toNat := by
  rw [← BitVec.msb_eq_getLsbD_last, BitVec.msb_eq_decide, decide_eq_true_iff]

theorem shiftLeft_one_eq_double (w : Word) : w <<< 1 = BitVec.ofNat 16 (2 * w.toNat) :=
  BitVec.eq_of_toNat_eq (by rw [BitVec.toNat_shiftLeft, BitVec.toNat_ofNat, Nat.shiftLeft_eq, Nat.mul_comm])

/-- R122's range of the words that overflow when they are doubled. -/
theorem topBits_differ_iff_range (w : Word) :
    (w.getLsbD 15 ^^ w.getLsbD 14) = true ↔ 0x4000 ≤ w.toNat ∧ w.toNat ≤ 0xBFFF := by
  have hw := w.isLt
  rw [← BitVec.testBit_toNat, ← BitVec.testBit_toNat, Nat.testBit_eq_decide_div_mod_eq,
    Nat.testBit_eq_decide_div_mod_eq, Bool.xor_iff_ne, ne_eq, decide_eq_decide]
  omega

theorem not_fitsSigned_double_iff_range (w : Word) :
    ¬ FitsSigned (2 * w.toInt) ↔ 0x4000 ≤ w.toNat ∧ w.toNat ≤ 0xBFFF := by
  have hw := w.isLt
  unfold FitsSigned
  rw [BitVec.toInt_eq_toNat_cond]
  split <;> omega

/-- Settles O12: bits 15 and 14 differ exactly in the range where the doubled signed value does not fit. -/
theorem aslDoublesTheRegister : Obligations.AslDoublesTheRegister := by
  refine ⟨fun _ => encode_of_regField rfl rfl rfl, fun r s =>
    ⟨_, s.reg r <<< 1, rfl, shiftLeft_one_eq_double _, rfl, hasFlags_setNZ _ _ ?overflow (getLsbD_15_iff_le_toNat _)⟩⟩
  case overflow => exact (topBits_differ_iff_range _).trans (not_fitsSigned_double_iff_range _).symm

/-! ### ASRr (R123) -/

/-- Bit 15 in front of bits 15 to 1 is the arithmetic shift of the bit vectors. -/
theorem signBit_append_eq_sshiftRight (w : Word) :
    (BitVec.ofBool (w.getLsbD 15) ++ w.extractLsb' 1 15 : Word) = w.sshiftRight 1 := by
  refine BitVec.eq_of_getLsbD_eq fun i hi => ?_
  rw [BitVec.getLsbD_append, BitVec.getLsbD_sshiftRight, BitVec.getLsbD_extractLsb', BitVec.msb_eq_getLsbD_last]
  by_cases h : i < 15
  · simp [h, show 1 + i < 16 by omega, show i < 16 by omega]
  · obtain rfl : i = 15 := by omega
    simp

theorem toInt_sshiftRight_one (w : Word) : (w.sshiftRight 1).toInt = w.toInt.fdiv 2 := by
  rw [BitVec.toInt_sshiftRight, Int.shiftRight_eq_div_pow, Int.fdiv_eq_ediv_of_nonneg _ (by decide)]
  rfl

theorem getLsbD_0_iff_odd (w : Word) : w.getLsbD 0 = true ↔ w.toNat % 2 = 1 := by
  rw [← BitVec.testBit_toNat, Nat.testBit_zero, decide_eq_true_iff]

/-- Settles O13: V is the old V. -/
theorem asrHalvesTheRegister : Obligations.AsrHalvesTheRegister := by
  refine ⟨fun _ => encode_of_regField rfl rfl rfl, fun r s =>
    ⟨_, _, rfl, ?value, rfl, hasFlags_setNZ _ _ ?overflow (getLsbD_0_iff_odd _)⟩⟩
  case value => rw [signBit_append_eq_sshiftRight, toInt_sshiftRight_one]
  case overflow => rw [State.setNZ_v, State.setReg_v]

/-! ### Rotates of bit vectors -/

/-- A rotate by the width of the left part swaps the two parts. -/
theorem rotateLeft_append {n m : Nat} (x : BitVec n) (y : BitVec m) (hm : 0 < m) :
    (x ++ y).rotateLeft n = (y ++ x).cast (Nat.add_comm m n) := by
  refine BitVec.eq_of_getLsbD_eq fun i hi => ?_
  rw [BitVec.getLsbD_rotateLeft, BitVec.getLsbD_cast, BitVec.getLsbD_append, BitVec.getLsbD_append,
    BitVec.getLsbD_append, Nat.mod_eq_of_lt (by omega)]
  by_cases h : i < n
  · simp [h]
  · simp [h, hi, show i - n < m by omega]

theorem rotateRight_eq_rotateLeft {n : Nat} (p : BitVec n) {k : Nat} (hk : 0 < k) (hkn : k < n) :
    p.rotateRight k = p.rotateLeft (n - k) := by
  refine BitVec.eq_of_getLsbD_eq fun i hi => ?_
  rw [BitVec.getLsbD_rotateRight, BitVec.getLsbD_rotateLeft, Nat.mod_eq_of_lt hkn,
    Nat.mod_eq_of_lt (show n - k < n by omega), Nat.sub_sub_self hkn.le]

/-- A rotate to the left by `k` takes the bit at `i` to `i + k`, positions counted modulo the width. -/
theorem getLsbD_rotateLeft_add_mod {n : Nat} (p : BitVec n) (k i : Nat) (hn : 0 < n) :
    (p.rotateLeft k).getLsbD ((i + k) % n) = p.getLsbD (i % n) := by
  have hi := Nat.mod_lt i hn
  have hk := Nat.mod_lt k hn
  rw [BitVec.getLsbD_rotateLeft, Nat.add_mod_eq_ite]
  by_cases h : n ≤ i % n + k % n
  · rw [if_pos h]
    simp [show i % n + k % n - n < k % n by omega, show n - k % n + (i % n + k % n - n) = i % n by omega]
  · rw [if_neg h]
    simp [show i % n + k % n < n by omega]

theorem exists_add_mod_eq {n j : Nat} (k : Nat) (hj : j < n) : ∃ i, (i + k) % n = j := by
  have hk : k ≤ n * k := Nat.le_mul_of_pos_left k (by omega)
  exact ⟨j + (n * k - k), by rw [Nat.add_assoc, Nat.sub_add_cancel hk, Nat.add_mul_mod_self_left, Nat.mod_eq_of_lt hj]⟩

theorem rotateLeft_rotateLeft {n : Nat} (p : BitVec n) (k m : Nat) :
    (p.rotateLeft k).rotateLeft m = p.rotateLeft (k + m) := by
  refine BitVec.eq_of_getLsbD_eq fun j hj => ?_
  have hn : 0 < n := by omega
  obtain ⟨i, rfl⟩ := exists_add_mod_eq (k + m) hj
  rw [getLsbD_rotateLeft_add_mod p _ _ hn, ← Nat.add_assoc, getLsbD_rotateLeft_add_mod _ _ _ hn,
    getLsbD_rotateLeft_add_mod _ _ _ hn]

theorem rotateLeft_of_dvd {n k : Nat} (p : BitVec n) (h : n ∣ k) : p.rotateLeft k = p := by
  refine BitVec.eq_of_getLsbD_eq fun i hi => ?_
  rw [BitVec.getLsbD_rotateLeft, Nat.mod_eq_zero_of_dvd h]
  simp [hi]

/-! ### ROLr and RORr as rotates of 17 bits (R124, R125) -/

theorem rotateLeft_carry_append (c : BitVec 1) (w : Word) : (c ++ w : BitVec 17).rotateLeft 1 = w ++ c :=
  rotateLeft_append c w (by decide)

theorem rotateLeft_append_carry (w : Word) (c : BitVec 1) : (w ++ c : BitVec 17).rotateLeft 16 = c ++ w :=
  rotateLeft_append w c (by decide)

theorem ofBool_getLsbD {n : Nat} (x : BitVec n) (i : Nat) : BitVec.ofBool (x.getLsbD i) = x.extractLsb' i 1 := by
  refine BitVec.eq_of_getLsbD_eq fun j hj => ?_
  obtain rfl : j = 0 := by omega
  simp

/-- The carry and the register that ROLr leaves are the 17 bits of the register followed by the old carry. -/
theorem shiftedOutLeft_append (w : Word) (c : BitVec 1) :
    (BitVec.ofBool (w.getLsbD 15) ++ (w.extractLsb' 0 15 ++ c : Word) : BitVec 17) = w ++ c := by
  have hjoin : (w.extractLsb' 15 1 ++ w.extractLsb' 0 15 : Word) = w := BitVec.extractLsb'_append_extractLsb'
  rw [ofBool_getLsbD]
  exact BitVec.append_assoc'.trans (congrArg (fun x : Word => (x ++ c : BitVec 17)) hjoin)

/-- The register and the carry that RORr leaves are the 17 bits of the old carry followed by the register. -/
theorem append_shiftedOutRight (w : Word) (c : BitVec 1) :
    ((c ++ w.extractLsb' 1 15 : Word) ++ BitVec.ofBool (w.getLsbD 0) : BitVec 17) = c ++ w := by
  have hjoin : (w.extractLsb' 1 15 ++ w.extractLsb' 0 1 : Word) = w := BitVec.extractLsb'_append_extractLsb'
  rw [ofBool_getLsbD]
  exact BitVec.append_assoc.trans (congrArg (fun x : Word => (c ++ x : BitVec 17)) hjoin)

/-- Settles O14: a rotate by one place moves the carry behind the register, which is what ROLr leaves. -/
theorem rolRotatesThroughCarry : Obligations.RolRotatesThroughCarry :=
  ⟨fun _ => encode_of_regField rfl rfl rfl, fun _ _ =>
    ⟨_, _, rfl, rfl, (shiftedOutLeft_append _ _).trans (rotateLeft_carry_append _ _).symm⟩⟩

/-- Settles O15: one place to the right is 16 places to the left, which moves the register behind the carry. -/
theorem rorRotatesThroughCarry : Obligations.RorRotatesThroughCarry := by
  refine ⟨fun _ => encode_of_regField rfl rfl rfl, fun r s => ⟨_, _, rfl, rfl, ?rotate⟩⟩
  case rotate =>
    rw [rotateRight_eq_rotateLeft _ (by decide) (by decide)]
    exact (append_shiftedOutRight _ _).trans (rotateLeft_append_carry _ _).symm

/-! ### Rotates in a row (R124, R125) -/

/-- The 17 bits (C, x[r]). -/
def carryPair (r : Reg) (s : State) : BitVec 17 := BitVec.ofBool s.c ++ s.reg r

/-- The state with `p` as its 17 bits (C, x[r]). -/
def withCarryPair (r : Reg) (p : BitVec 17) (s : State) : State :=
  { s.setReg r (p.extractLsb' 0 16) with c := p.getLsbD 16 }

/-- The state with its 17 bits (C, x[r]) rotated to the left by `k` places. -/
def rotateCarryPair (r : Reg) (k : Nat) (s : State) : State := withCarryPair r ((carryPair r s).rotateLeft k) s

theorem withCarryPair_append (r : Reg) (b : Bool) (w : Word) (s : State) :
    withCarryPair r (BitVec.ofBool b ++ w) s = { s.setReg r w with c := b } := by
  have hw : (BitVec.ofBool b ++ w : BitVec 17).extractLsb' 0 16 = w := extractLsb'_append_right _ _
  have hb : (BitVec.ofBool b ++ w : BitVec 17).getLsbD 16 = b := BitVec.getLsbD_append.trans (by simp)
  unfold withCarryPair
  rw [hw, hb]

theorem withCarryPair_carryPair (r : Reg) (s : State) : withCarryPair r (carryPair r s) s = s := by
  unfold carryPair
  rw [withCarryPair_append]
  cases r <;> rfl

theorem carryPair_withCarryPair (r : Reg) (p : BitVec 17) (s : State) : carryPair r (withCarryPair r p s) = p := by
  have hreg : (withCarryPair r p s).reg r = p.extractLsb' 0 16 := by cases r <;> rfl
  unfold carryPair
  rw [hreg]
  exact (congrArg (· ++ p.extractLsb' 0 16) (ofBool_getLsbD p 16)).trans BitVec.extractLsb'_append_extractLsb'

theorem withCarryPair_withCarryPair (r : Reg) (p q : BitVec 17) (s : State) :
    withCarryPair r q (withCarryPair r p s) = withCarryPair r q s := by
  cases r <;> rfl

theorem rotateCarryPair_rotateCarryPair (r : Reg) (k m : Nat) (s : State) :
    rotateCarryPair r m (rotateCarryPair r k s) = rotateCarryPair r (k + m) s := by
  unfold rotateCarryPair
  rw [carryPair_withCarryPair, withCarryPair_withCarryPair, rotateLeft_rotateLeft]

theorem rotateCarryPair_of_dvd (r : Reg) {k : Nat} (h : 17 ∣ k) (s : State) : rotateCarryPair r k s = s := by
  unfold rotateCarryPair
  rw [rotateLeft_of_dvd _ h, withCarryPair_carryPair]

theorem exec_rolr (r : Reg) (s : State) : exec (.rolr r) s = .next (rotateCarryPair r 1 s) := by
  unfold rotateCarryPair carryPair
  rw [rotateLeft_carry_append, ← shiftedOutLeft_append, withCarryPair_append]
  rfl

theorem exec_rorr (r : Reg) (s : State) : exec (.rorr r) s = .next (rotateCarryPair r 16 s) := by
  unfold rotateCarryPair carryPair
  rw [← append_shiftedOutRight, rotateLeft_append_carry, withCarryPair_append]
  rfl

/-- An instruction that always rotates by `k` places rotates by `j * k` places when it is executed `j` times. -/
theorem execTimes_of_rotate {i : Instr} {r : Reg} {k : Nat} (h : ∀ s, exec i s = .next (rotateCarryPair r k s))
    (j : Nat) (s : State) : execTimes j i s = .next (rotateCarryPair r (j * k) s) := by
  induction j generalizing s with
  | zero => rw [Nat.zero_mul, rotateCarryPair_of_dvd r (Nat.dvd_zero 17)]; rfl
  | succ j ih =>
    unfold execTimes
    rw [h]
    dsimp only
    rw [ih, rotateCarryPair_rotateCarryPair, Nat.succ_mul, Nat.add_comm]

/-- Settles O16: ROLr rotates by 1 place and RORr by 16, and a rotate by a multiple of 17 places keeps the state. -/
theorem rotatesAreUndone : Obligations.RotatesAreUndone := by
  refine fun r s => ⟨?rol17, ?ror17, fun t h => ?rorAfterRol, fun t h => ?rolAfterRor⟩
  case rol17 => rw [execTimes_of_rotate (exec_rolr r), rotateCarryPair_of_dvd r (by decide)]
  case ror17 => rw [execTimes_of_rotate (exec_rorr r), rotateCarryPair_of_dvd r (by decide)]
  case rorAfterRol =>
    obtain rfl := Host.Outcome.next.inj ((exec_rolr r s).symm.trans h)
    rw [exec_rorr, rotateCarryPair_rotateCarryPair, rotateCarryPair_of_dvd r (by decide)]
  case rolAfterRor =>
    obtain rfl := Host.Outcome.next.inj ((exec_rorr r s).symm.trans h)
    rw [exec_rolr, rotateCarryPair_rotateCarryPair, rotateCarryPair_of_dvd r (by decide)]

end Sys2Proof.Proofs

/-! PROOFS, scope. Decimal numerals: which inputs DECI reads as a numeral (spec/43_traps.md R135), and that it reads back
the text DECO writes (R137). -/

namespace Sys2Proof.Proofs

open Sys2Proof.Machine Sys2Proof.Claims

/-! ### Digits (R90) -/

theorem isDigit_iff (c : Byte) : isDigit c = true ↔ 0x30 ≤ c.toNat ∧ c.toNat ≤ 0x39 := by
  unfold isDigit
  rw [Bool.and_eq_true, decide_eq_true_iff, decide_eq_true_iff]
  exact Iff.rfl

theorem isDigit_eq_false_iff (c : Byte) : isDigit c = false ↔ NotDigit c := by
  rw [← Bool.not_eq_true, isDigit_iff]
  unfold NotDigit
  omega

/-- The number that digits say when they are written after those of `mag`. -/
def digitsAfter (mag : Nat) (bs : List Byte) : Nat := bs.foldl (fun acc b => acc * 10 + digitValue b) mag

theorem digitsValue_eq_digitsAfter (bs : List Byte) : digitsValue bs = digitsAfter 0 bs := rfl

theorem digitsValue_cons (c : Byte) (bs : List Byte) : digitsValue (c :: bs) = digitsAfter (digitValue c) bs := by
  rw [digitsValue_eq_digitsAfter, digitsAfter, List.foldl_cons, Nat.zero_mul, Nat.zero_add]
  rfl

theorem digitsValue_append_singleton (bs : List Byte) (c : Byte) :
    digitsValue (bs ++ [c]) = digitsValue bs * 10 + digitValue c := List.foldl_concat ..

/-! ### What the three states of R135 do -/

theorem readDigits_append {digits : List Byte} (h : AllDigits digits) (neg : Bool) (mag : Nat) (rest : List Byte) :
    readDigits neg mag (digits ++ rest) = readDigits neg (digitsAfter mag digits) rest := by
  induction digits generalizing mag with
  | nil => rfl
  | cons c digits ih =>
    obtain ⟨hc, hdigits⟩ := List.forall_mem_cons.mp h
    rw [List.cons_append, readDigits, if_pos ((isDigit_iff c).mpr hc), ih hdigits]
    rfl

/-- The terminator is consumed. -/
theorem readDigits_of_notDigit {c : Byte} (h : NotDigit c) (sign : Sign) (mag : Nat) (rest : List Byte) :
    readDigits (sign == .minus) mag (c :: rest) = .numeral (signed sign mag) rest := by
  rw [readDigits, (isDigit_eq_false_iff c).mpr h]
  cases sign <;> rfl

theorem readAfterSign_of_digit {c : Byte} (h : isDigit c = true) (neg : Bool) (rest : List Byte) :
    readAfterSign neg (c :: rest) = readDigits neg (digitValue c) rest := if_pos h

theorem readAfterSign_of_notDigit {c : Byte} (h : NotDigit c) (neg : Bool) (rest : List Byte) :
    readAfterSign neg (c :: rest) = .invalid c := by
  rw [readAfterSign, (isDigit_eq_false_iff c).mpr h]
  rfl

theorem readDecimal_blanks_append {blanks : List Byte} (h : AllBlank blanks) (rest : List Byte) :
    readDecimal (blanks ++ rest) = readDecimal rest := by
  induction blanks with
  | nil => rfl
  | cons b blanks ih =>
    obtain ⟨hb, hblanks⟩ := List.forall_mem_cons.mp h
    rw [List.cons_append, readDecimal, if_pos hb, ih hblanks]

/-- A byte that is neither blank nor sign is a first digit, or invalid. -/
theorem readDecimal_of_noBlank_noSign {c : Byte} (hspace : c ≠ 0x20#8) (hfeed : c ≠ 0x0A#8) (hplus : c ≠ 0x2B#8)
    (hminus : c ≠ 0x2D#8) (rest : List Byte) :
    readDecimal (c :: rest) = if isDigit c then readDigits false (digitValue c) rest else .invalid c := by
  rw [readDecimal, if_neg (not_or.mpr ⟨hspace, hfeed⟩), if_neg hplus, if_neg hminus]

theorem readDecimal_of_digit {c : Byte} (h : isDigit c = true) (rest : List Byte) :
    readDecimal (c :: rest) = readDigits false (digitValue c) rest := by
  have hne : ∀ b : Byte, isDigit b = false → c ≠ b := by
    rintro b hb rfl
    rw [h] at hb
    exact nomatch hb
  rw [readDecimal_of_noBlank_noSign (hne _ rfl) (hne _ rfl) (hne _ rfl) (hne _ rfl), if_pos h]

theorem readDecimal_sign_append {sign : Sign} (h : sign ≠ .none) (rest : List Byte) :
    readDecimal (signBytes sign ++ rest) = readAfterSign (sign == .minus) rest := by
  cases sign with
  | none => exact absurd rfl h
  | plus => rfl
  | minus => rfl

/-- Behind an optional sign and at least one digit, the state is DIGITS with their number as magnitude. -/
theorem readDecimal_sign_digits_append (sign : Sign) {digits : List Byte} (h : AllDigits digits) (hne : digits ≠ [])
    (rest : List Byte) :
    readDecimal (signBytes sign ++ digits ++ rest) = readDigits (sign == .minus) (digitsValue digits) rest := by
  obtain ⟨c, digits, rfl⟩ := List.exists_cons_of_ne_nil hne
  obtain ⟨hc, hdigits⟩ := List.forall_mem_cons.mp h
  have hfirst : readDecimal (signBytes sign ++ (c :: (digits ++ rest))) =
      readDigits (sign == .minus) (digitValue c) (digits ++ rest) := by
    by_cases hsign : sign = .none
    · subst hsign
      exact readDecimal_of_digit ((isDigit_iff c).mpr hc) _
    · rw [readDecimal_sign_append hsign, readAfterSign_of_digit ((isDigit_iff c).mpr hc)]
  rw [List.append_assoc, List.cons_append, hfirst, readDigits_append hdigits, digitsValue_cons]

/-- Settles O19: the blanks are skipped, the digits' number is the magnitude, and the next byte ends the numeral. -/
theorem numeralIsRead : Obligations.NumeralIsRead := by
  intro blanks sign digits c rest hblanks hne hdigits hc
  rw [List.append_assoc, List.append_assoc, readDecimal_blanks_append hblanks, ← List.append_assoc,
    readDecimal_sign_digits_append sign hdigits hne, readDigits_of_notDigit hc]

/-- Settles O20: in each state of R135, the byte or the end that it does not go on from. -/
theorem numeralIsNotRead : Obligations.NumeralIsNotRead := by
  refine ⟨?start, ?afterSign, ?ends⟩
  case start =>
    intro blanks c rest hblanks hc hspace hfeed hplus hminus
    rw [readDecimal_blanks_append hblanks, readDecimal_of_noBlank_noSign hspace hfeed hplus hminus,
      (isDigit_eq_false_iff c).mpr hc]
    rfl
  case afterSign =>
    intro blanks sign c rest hblanks hsign hc
    rw [List.append_assoc, readDecimal_blanks_append hblanks, readDecimal_sign_append hsign,
      readAfterSign_of_notDigit hc]
  case ends =>
    intro blanks sign digits hblanks hdigits
    rw [List.append_assoc, readDecimal_blanks_append hblanks]
    by_cases hne : digits = []
    · subst hne
      cases sign <;> rfl
    · rw [← List.append_nil (_ ++ _), readDecimal_sign_digits_append sign hdigits hne]
      rfl

/-! ### The shortest numeral (R137) -/

/-- The digits are the numeral of `k` without a leading zero. -/
structure IsShortestNumeral (k : Nat) (digits : List Byte) : Prop where
  allDigits : AllDigits digits
  ne_nil : digits ≠ []
  value : digitsValue digits = k
  no_leading_zero : digits.head? = some 0x30 → digits = [0x30]

theorem toNat_digitByte {d : Nat} (h : d < 10) : (BitVec.ofNat 8 (0x30 + d)).toNat = 0x30 + d :=
  by
  rw [BitVec.toNat_ofNat, Nat.mod_eq_of_lt (by omega)]

theorem digitValue_digitByte {d : Nat} (h : d < 10) : digitValue (BitVec.ofNat 8 (0x30 + d)) = d := by
  rw [digitValue, toNat_digitByte h, Nat.add_sub_cancel_left]

theorem isShortestNumeral_singleton {d : Nat} (h : d < 10) : IsShortestNumeral d [BitVec.ofNat 8 (0x30 + d)] where
  allDigits := List.forall_mem_singleton.mpr (by rw [toNat_digitByte h]; omega)
  ne_nil := List.cons_ne_nil _ _
  value := by rw [digitsValue_cons, digitValue_digitByte h]; rfl
  no_leading_zero hhead := by rw [Option.some.inj hhead]

/-- A digit may follow any numeral but "0". -/
theorem IsShortestNumeral.append_digit {k d : Nat} {digits : List Byte} (hk : IsShortestNumeral k digits)
    (hpos : k ≠ 0) (hd : d < 10) : IsShortestNumeral (k * 10 + d) (digits ++ [BitVec.ofNat 8 (0x30 + d)]) where
  allDigits := List.forall_mem_append.mpr ⟨hk.allDigits, (isShortestNumeral_singleton hd).allDigits⟩
  ne_nil := List.append_ne_nil_of_left_ne_nil hk.ne_nil _
  value := by rw [digitsValue_append_singleton, hk.value, digitValue_digitByte hd]
  no_leading_zero hhead := by
    rw [List.head?_append_of_ne_nil _ hk.ne_nil] at hhead
    have hzero : k = 0 := by rw [← hk.value, hk.no_leading_zero hhead]; rfl
    exact absurd hzero hpos

theorem isShortestNumeral_decimalDigits {fuel k : Nat} (h : k < 10 ^ (fuel + 1)) :
    IsShortestNumeral k (decimalDigits (fuel + 1) k) := by
  induction fuel generalizing k with
  | zero =>
    have hlt : k < 10 := h
    rw [decimalDigits, if_pos hlt]
    exact isShortestNumeral_singleton hlt
  | succ fuel ih =>
    rw [decimalDigits]
    split
    · next hlt => exact isShortestNumeral_singleton hlt
    · next hge =>
      have hquot : IsShortestNumeral (k / 10) (decimalDigits (fuel + 1) (k / 10)) :=
        ih (Nat.div_lt_of_lt_mul (by rwa [Nat.pow_succ, Nat.mul_comm] at h))
      have hlast := hquot.append_digit (d := k % 10) (by omega) (Nat.mod_lt k (by decide))
      rwa [Nat.div_add_mod'] at hlast

/-- Five digits hold the magnitude of every 16-bit signed number. -/
theorem isShortestNumeral_of_fitsSigned {k : Int} (h : FitsSigned k) :
    IsShortestNumeral k.natAbs (decimalDigits 5 k.natAbs) := by
  obtain ⟨hlo, hhi⟩ := h
  exact isShortestNumeral_decimalDigits (by omega)

/-- Settles O22: the digits after the sign are the shortest numeral of the magnitude. -/
theorem decimalTextIsShortest : Obligations.DecimalTextIsShortest := by
  intro k hk
  obtain ⟨hdigits, hne, hvalue, hzero⟩ := isShortestNumeral_of_fitsSigned hk
  exact ⟨_, rfl, hdigits, hne, hvalue, hzero⟩

/-! ### DECI reads what DECO writes -/

/-- The sign that `DecimalText` writes. -/
def signOf (k : Int) : Sign := if k < 0 then .minus else .none

theorem decimalText_eq (k : Int) : decimalText k = signBytes (signOf k) ++ decimalDigits 5 k.natAbs := by
  unfold decimalText signOf
  split <;> rfl

theorem signed_signOf_natAbs (k : Int) : signed (signOf k) k.natAbs = k := by
  unfold signOf
  split
  · next hneg => exact neg_eq_iff_eq_neg.mpr (Int.ofNat_natAbs_of_nonpos hneg.le)
  · next hpos => exact Int.natAbs_of_nonneg (not_lt.mp hpos)

theorem fitsSigned_toInt (w : Word) : FitsSigned w.toInt :=
  ⟨BitVec.le_toInt w, Int.lt_add_one_iff.mp (BitVec.toInt_lt (x := w))⟩

/-- Settles O23: the text is a sign and the digits of the magnitude, and such a numeral is read as its number. -/
theorem deciReadsWhatDecoWrites : Obligations.DeciReadsWhatDecoWrites := by
  intro w c rest hc
  obtain ⟨hdigits, hne, hvalue, -⟩ := isShortestNumeral_of_fitsSigned (fitsSigned_toInt w)
  have hread := numeralIsRead [] (signOf w.toInt) _ c rest nofun hne hdigits hc
  rwa [hvalue, signed_signOf_natAbs, List.nil_append, ← decimalText_eq] at hread

end Sys2Proof.Proofs

/-! PROOFS, scope. The trap instructions with `TRAP_MODEL = service` (spec/43_traps.md R129 to R138): their bytes and
their service effects. -/

namespace Sys2Proof.Proofs

open Sys2Proof.Machine Sys2Proof.Claims

/-! ### The bytes of an instruction with a 3-bit mode (R53, R55) -/

theorem append_modeField (op : BitVec 5) (m : Mode) : (op ++ m.field : Byte) = (op ++ 0#3) + modeNumber m := by
  cases m <;> (revert op; decide)

/-- The specifier is that of the row's first mode plus the number of the mode; the operand specifier follows, its more
significant byte first. -/
theorem encode_of_modeField {i : Instr} {op : BitVec 5} {first : Byte} {m : Mode} {w : Word}
    (hspecifier : specifierOf i = op ++ m.field) (hoperand : operandSpecifierOf i = some w)
    (hfirst : op ++ 0#3 = first) :
    encode i = [first + modeNumber m, w.extractLsb' 8 8, w.extractLsb' 0 8] := by
  unfold encode
  rw [hoperand, hspecifier, append_modeField, hfirst]
  rfl

/-! ### NOPn and NOP (R130, R132) -/

theorem exec_nopn_of_service {s : State} (hmodel : s.params.trapModel = .service) (nn : BitVec 2) :
    exec (.nopn nn) s = .next s := dispatchTrap_of_service hmodel _

theorem exec_nop_of_service {s : State} (hmodel : s.params.trapModel = .service) (w : Word) :
    exec (.nop .i w) s = .next s := dispatchTrap_of_service hmodel _

theorem wellFormed_nop_of_ne_i {m : Mode} (h : m ≠ .i) (w : Word) : (Instr.nop m w).wellFormed = false := by
  cases m with
  | i => exact absurd rfl h
  | _ => rfl

/-- Settles O17: the service of both is to do nothing, and a NOP that is not immediate is ill-formed. -/
theorem trapNopsDoNothing : Obligations.TrapNopsDoNothing := by
  refine ⟨by decide, fun w => rfl, fun s hmodel => ⟨?nopn, ?nop, ?illegal⟩⟩
  case nopn => exact exec_nopn_of_service hmodel
  case nop => exact exec_nop_of_service hmodel
  case illegal => exact fun m w hm => exec_of_illFormed (wellFormed_nop_of_ne_i hm w) fun _ => hmodel

/-! ### DECI (R134) -/

theorem exists_ea_of_ne_i {m : Mode} (h : m ≠ .i) (w : Word) (s : State) : ∃ ea, effectiveAddress m w s = some ea := by
  cases m with
  | i => exact absurd rfl h
  | _ => exact ⟨_, rfl⟩

theorem popDecimal_of_numeral {s : State} {value : Int} {rest : List Byte}
    (h : readDecimal s.input = .numeral value rest) : s.popDecimal = .ok (value, { s with input := rest }) := by
  unfold State.popDecimal
  rw [h]

theorem popDecimal_of_invalid {s : State} {c : Byte} (h : readDecimal s.input = .invalid c) :
    s.popDecimal = .error (.fault (.invalidDeciInput c)) := by
  unfold State.popDecimal
  rw [h]

theorem popDecimal_of_exhausted {s : State} (h : readDecimal s.input = .exhausted) :
    s.popDecimal = .error s.outOfInput := by
  unfold State.popDecimal
  rw [h]

theorem outOfInput_of_fault {s : State} (h : s.params.inputEof = .fault) : s.outOfInput = .fault .inputExhausted := by
  unfold State.outOfInput
  rw [h]

/-- V of DECI. -/
theorem outOfRange_iff_not_fitsSigned (value : Int) :
    (decide (value < -32768) || decide (32767 < value)) = true ↔ ¬ FitsSigned value := by
  rw [Bool.or_eq_true, decide_eq_true_iff, decide_eq_true_iff]
  unfold FitsSigned
  omega

/-- What DECI makes of the state that its store leaves. -/
def withDeciFlags (value : Int) (stored : State) : State :=
  { stored.setNZ (BitVec.ofInt 16 value) with v := decide (value < -32768) || decide (32767 < value) }

theorem hasFlags_withDeciFlags (value : Int) (stored : State) :
    HasFlags (withDeciFlags value stored) (BitVec.ofInt 16 value) (¬ FitsSigned value) (stored.c = true) :=
  hasFlags_setNZ stored _ (outOfRange_iff_not_fitsSigned value) (c := stored.c) Iff.rfl

/-- DECI with an address and a numeral ends as its store does; then it writes the flags. -/
theorem execDeci_of_numeral {m : Mode} {w ea : Word} {s : State} {value : Int} {rest : List Byte}
    (hmodel : s.params.trapModel = .service) (hea : effectiveAddress m w s = some ea)
    (hread : readDecimal s.input = .numeral value rest) :
    execDeci m w s = finish (State.write2 { s with input := rest } ea (BitVec.ofInt 16 value) >>= fun stored =>
      .ok (withDeciFlags value stored)) := by
  unfold execDeci
  rw [dispatchTrap_of_service hmodel, operandAddress_destination hea, popDecimal_of_numeral hread]
  rfl

/-- DECI in a legal mode whose `ReadDecimal()` stops stops as it does. -/
theorem execDeci_of_popDecimal_error {m : Mode} {s : State} {stop : Stop} (hmodel : s.params.trapModel = .service)
    (hm : m ≠ .i) (w : Word) (hpop : s.popDecimal = .error stop) : execDeci m w s = finish (.error stop) := by
  obtain ⟨ea, hea⟩ := exists_ea_of_ne_i hm w s
  unfold execDeci
  rw [dispatchTrap_of_service hmodel, operandAddress_destination hea, hpop]
  rfl

/-- What a DECI that reads a numeral leaves, where its store raises no fault. -/
theorem execDeci_stores {m : Mode} {w ea : Word} {s : State} {value : Int} {rest : List Byte}
    (hmodel : s.params.trapModel = .service) (hea : effectiveAddress m w s = some ea)
    (hread : readDecimal s.input = .numeral value rest) (h : CanStore s ea) (h' : CanStore s (ea + 1)) :
    ∃ t, execDeci m w s = .next t ∧ t = { s with input := rest, mem := t.mem, n := t.n, z := t.z, v := t.v } ∧
      StoresWord s t ea (BitVec.ofInt 16 value) ∧
      HasFlags t (BitVec.ofInt 16 value) (¬ FitsSigned value) (s.c = true) := by
  obtain ⟨stored, hstore⟩ := State.write2_completes (s := { s with input := rest }) (BitVec.ofInt 16 value)
    (canStore_iff.mp h) (canStore_iff.mp h')
  have hframe := State.write2_frame hstore
  have hcarry : stored.c = s.c := by rw [hframe]
  have hstores : StoresWord s stored ea (BitVec.ofInt 16 value) :=
    storesWord_of_write2 (s := { s with input := rest }) hstore
  refine ⟨withDeciFlags value stored, ?next, ?frame, hstores, ?flags⟩
  case next =>
    rw [execDeci_of_numeral hmodel hea hread, hstore]
    rfl
  case frame =>
    rw [hframe]
    rfl
  case flags => exact hcarry ▸ hasFlags_withDeciFlags value stored

/-- Settles O18: what `ReadDecimal()` answers decides how a DECI in a legal mode goes on. -/
theorem deciStoresTheNumeral : Obligations.DeciStoresTheNumeral := by
  refine ⟨?bytes, ?stores, ?illegal, ?invalid, ?exhausted⟩
  case bytes => exact fun m w => encode_of_modeField rfl rfl rfl
  case stores => exact fun m w ea s value rest hmodel hea hread h h' => execDeci_stores hmodel hea hread h h'
  case illegal => exact fun w s hmodel => exec_of_illFormed rfl fun _ => hmodel
  case invalid =>
    intro m w s c hmodel hm hread
    exact execDeci_of_popDecimal_error hmodel hm w (popDecimal_of_invalid hread)
  case exhausted =>
    intro m w s hmodel hm hread
    have hstop : exec (.deci m w) s = finish (.error s.outOfInput) :=
      execDeci_of_popDecimal_error hmodel hm w (popDecimal_of_exhausted hread)
    refine ⟨fun heof => ?_, fun t ht => ?_⟩
    · rw [hstop, outOfInput_of_fault heof, finish_fault]
    · exact nomatch finish_eq_next (hstop.symm.trans ht)

/-! ### DECO (R136) -/

/-- Settles O21: the service is one output. -/
theorem decoOutputsTheNumeral : Obligations.DecoOutputsTheNumeral :=
  ⟨fun _ _ => encode_of_modeField rfl rfl rfl, fun _ _ _ hmodel => dispatchTrap_of_service hmodel _⟩

/-! ### STRO (R138) -/

theorem stringAt_succ_of_zero {s : State} {a : Word} (h : s.read1 a = 0) (fuel : Nat) :
    stringAt s a (fuel + 1) = some [] := if_pos h

theorem stringAt_succ_of_ne_zero {s : State} {a : Word} (h : s.read1 a ≠ 0) (fuel : Nat) :
    stringAt s a (fuel + 1) = (stringAt s (a + 1) fuel).map (s.read1 a :: ·) := if_neg h

theorem add_one_add_ofNat (a : Word) (k : Nat) : a + 1 + BitVec.ofNat 16 k = a + BitVec.ofNat 16 (k + 1) := by
  rw [BitVec.ofNat_add, BitVec.add_assoc, BitVec.add_comm (BitVec.ofNat 16 k)]
  rfl

/-- Enough fuel finds a string of `len` bytes. -/
theorem stringAt_of_terminated {s : State} {a : Word} {len fuel : Nat} (hfuel : len < fuel)
    (hbytes : ∀ k, k < len → s.read1 (a + BitVec.ofNat 16 k) ≠ 0) (hend : s.read1 (a + BitVec.ofNat 16 len) = 0) :
    stringAt s a fuel = some ((List.range len).map fun k => s.read1 (a + BitVec.ofNat 16 k)) := by
  induction fuel generalizing a len with
  | zero => exact absurd hfuel (Nat.not_lt_zero len)
  | succ fuel ih =>
    cases len with
    | zero =>
      rw [BitVec.add_zero] at hend
      exact stringAt_succ_of_zero hend fuel
    | succ len =>
      have hfirst : s.read1 a ≠ 0 := by simpa using hbytes 0 (Nat.succ_pos len)
      have hrest := ih (a := a + 1) (len := len) (Nat.lt_of_succ_lt_succ hfuel)
      simp only [add_one_add_ofNat] at hrest
      rw [stringAt_succ_of_ne_zero hfirst, hrest (fun k hk => hbytes (k + 1) (Nat.succ_lt_succ hk)) hend,
        List.range_succ_eq_map, List.map_cons, List.map_map, BitVec.add_zero]
      rfl

theorem stringAt_of_unterminated {s : State} (h : ∀ a, s.read1 a ≠ 0) (a : Word) (fuel : Nat) :
    stringAt s a fuel = none := by
  induction fuel generalizing a with
  | zero => rfl
  | succ fuel ih => rw [stringAt_succ_of_ne_zero (h a), ih, Option.map_none]

theorem mem_stringModes_iff {m : Mode} : m ∈ stringModes ↔ m = .d ∨ m = .n ∨ m = .sf := by
  simp only [stringModes, List.mem_cons, List.not_mem_nil, or_false]

theorem execStro_of_string {m : Mode} {w ea : Word} {s : State} {bytes : List Byte}
    (hmodel : s.params.trapModel = .service) (hm : m ∈ stringModes) (hea : effectiveAddress m w s = some ea)
    (hstring : stringAt s ea 65536 = some bytes) : execStro m w s = .next (s.outPut bytes) := by
  unfold execStro
  rw [dispatchTrap_of_service hmodel, bind_of_eq_ok (operandAddress_completes hm hea), hstring]
  rfl

theorem execStro_of_no_string {m : Mode} {w ea : Word} {s : State} (hmodel : s.params.trapModel = .service)
    (hm : m ∈ stringModes) (hea : effectiveAddress m w s = some ea) (hstring : stringAt s ea 65536 = none) :
    execStro m w s = .fault .unterminatedString := by
  unfold execStro
  rw [dispatchTrap_of_service hmodel, bind_of_eq_ok (operandAddress_completes hm hea), hstring]
  rfl

/-- Settles O24: the search through memory finds the string or nothing, and the other modes are ill-formed. -/
theorem stroOutputsTheString : Obligations.StroOutputsTheString := by
  refine ⟨?bytes, ?outputs, ?unterminated, ?illegal⟩
  case bytes => exact fun m w => encode_of_modeField rfl rfl rfl
  case outputs =>
    intro m w ea s len hmodel hm hea hlen hbytes hend
    exact execStro_of_string hmodel (mem_stringModes_iff.mpr hm) hea (stringAt_of_terminated hlen hbytes hend)
  case unterminated =>
    intro m w s hmodel hm hmem
    obtain ⟨ea, hea⟩ := exists_ea_of_ne_i (m := m) (by rintro rfl; exact absurd hm (by decide)) w s
    exact execStro_of_no_string hmodel (mem_stringModes_iff.mpr hm) hea (stringAt_of_unterminated hmem ea 65536)
  case illegal =>
    intro m w s hmodel hm
    have hunlisted : stringModes.contains m = false := by
      rw [← Bool.not_eq_true, List.contains_iff_mem, mem_stringModes_iff]
      exact hm
    exact exec_of_illFormed ((isString_eq_contains m).trans hunlisted) fun _ => hmodel

end Sys2Proof.Proofs

/-! PROOFS, scope. CHARI and CHARO (spec/44_char_io.md R140, R141): their bytes, the one byte each moves between memory
and a stream, and the two ways a CHARI does not complete. -/

namespace Sys2Proof.Proofs

open Sys2Proof.Machine Sys2Proof.Claims

/-! ### What a byte store leaves to be read (R33, R35) -/

theorem storesByte_of_write1 {s t : State} {a : Word} {b : Byte} (h : s.write1 a b = .ok t) : StoresByte s t a b := by
  have hread := State.write1_read1 h
  refine ⟨fun hram => ?_, fun hrom => ?_, fun k hk => ?_⟩
  · rw [hread, if_pos ⟨rfl, inRom_eq_false_iff.mpr hram⟩]
  · rw [hread, if_neg (fun hk => inRom_eq_false_iff.mp hk.2 hrom)]
  · rw [hread, if_neg (fun h => hk h.1)]

/-! ### What `InPop()` does (R17) -/

theorem inPop_of_cons {s : State} {c : Byte} {rest : List Byte} (h : s.input = c :: rest) :
    s.inPop = .ok (c, { s with input := rest }) := by
  unfold State.inPop
  rw [h]

theorem inPop_of_nil {s : State} (h : s.input = []) : s.inPop = .error s.outOfInput := by
  unfold State.inPop
  rw [h]

/-! ### CHARI (R140) -/

/-- CHARI with an address ends as `InPop()` and then the store of the popped byte do. -/
theorem execChari_of_ea {m : Mode} {w ea : Word} {s : State} (hea : effectiveAddress m w s = some ea) :
    execChari m w s = finish (s.inPop >>= fun popped => popped.2.write1 ea popped.1) := by
  unfold execChari
  rw [operandAddress_destination hea]
  rfl

/-- What a CHARI that finds a byte leaves, where its store raises no fault. -/
theorem execChari_stores {m : Mode} {w ea : Word} {s : State} {c : Byte} {rest : List Byte}
    (hea : effectiveAddress m w s = some ea) (hin : s.input = c :: rest) (h : CanStore s ea) :
    ∃ t, execChari m w s = .next t ∧ t = { s with input := rest, mem := t.mem } ∧ StoresByte s t ea c := by
  obtain ⟨t, hstore⟩ := State.write1_completes (s := { s with input := rest }) c (canStore_iff.mp h)
  have hbyte : StoresByte s t ea c := storesByte_of_write1 (s := { s with input := rest }) hstore
  refine ⟨t, ?next, State.write1_frame hstore, hbyte⟩
  case next =>
    rw [execChari_of_ea hea, bind_of_eq_ok (inPop_of_cons hin), hstore]
    rfl

/-- CHARI in a legal mode on the empty input stops as `INPUT_EOF` says. -/
theorem execChari_of_empty_input {m : Mode} {s : State} (hm : m ≠ .i) (w : Word) (hin : s.input = []) :
    execChari m w s = finish (.error s.outOfInput) := by
  obtain ⟨ea, hea⟩ := exists_ea_of_ne_i hm w s
  rw [execChari_of_ea hea, inPop_of_nil hin]
  rfl

/-- Settles O27: what `InPop()` answers decides how a CHARI in a legal mode goes on; mode i is ill-formed. -/
theorem chariStoresTheInputByte : Obligations.ChariStoresTheInputByte := by
  refine ⟨?bytes, ?stores, ?illegal, ?empty⟩
  case bytes => exact fun m w => encode_of_modeField rfl rfl rfl
  case stores => exact fun m w ea s c rest hea hin h => execChari_stores hea hin h
  case illegal =>
    intro w s
    exact exec_of_illFormed rfl fun htrap => absurd htrap (not_trapRange_of_upperField _ _ (by decide))
  case empty =>
    intro m w s hm hin
    have hstop : exec (.chari m w) s = finish (.error s.outOfInput) := execChari_of_empty_input hm w hin
    refine ⟨fun heof => ?_, fun t ht => ?_⟩
    · rw [hstop, outOfInput_of_fault heof, finish_fault]
    · exact nomatch finish_eq_next (hstop.symm.trans ht)

/-! ### CHARO (R141) -/

/-- CHARO with an address outputs the byte there. -/
theorem execCharo_of_ea {m : Mode} {w ea : Word} {s : State} (hea : effectiveAddress m w s = some ea) :
    execCharo m w s = .next (s.outPut [s.read1 ea]) := by
  unfold execCharo
  rw [operand8_of_ea hea]

/-- Settles O28: CHARO is one output of its byte operand, which with mode i is the low byte of `Spec`. -/
theorem charoOutputsTheByte : Obligations.CharoOutputsTheByte := by
  refine ⟨?bytes, ?immediate, ?memory⟩
  case bytes => exact fun m w => encode_of_modeField rfl rfl rfl
  case immediate => exact fun w s => rfl
  case memory => exact fun m w ea s hea => execCharo_of_ea hea

end Sys2Proof.Proofs

/-! PROOFS, scope. The 16-bit sum and difference and their flags (spec/46_arith_logic.md R151, R152). -/

namespace Sys2Proof.Proofs

open Sys2Proof.Machine Sys2Proof.Claims

/-! ### The flags of a sum (R150, R151) -/

theorem hasFlags_setNZVC (s : State) {r : Sum16} {w : Word} {ov ca : Prop} (hvalue : r.value = w)
    (hv : r.overflow = true ↔ ov) (hc : r.carry = true ↔ ca) : HasFlags (s.setNZVC r) w ov ca := by
  subst hvalue
  exact hasFlags_setNZ s r.value hv hc

/-! ### `Add16` (R151) -/

theorem getLsbD_15_eq_iff (a b : Word) :
    a.getLsbD 15 = b.getLsbD 15 ↔ (32768 ≤ a.toNat ↔ 32768 ≤ b.toNat) := by
  rw [Bool.eq_iff_iff, getLsbD_15_iff_le_toNat, getLsbD_15_iff_le_toNat]

theorem add16_value_toNat (a b : Word) (cin : Bool) :
    (add16 a b cin).value.toNat = (a.toNat + b.toNat + cin.toNat) % 65536 := BitVec.toNat_ofNat _ _

theorem add16_value (a b : Word) (cin : Bool) : (add16 a b cin).value = a + b + BitVec.ofNat 16 cin.toNat := by
  refine BitVec.eq_of_toNat_eq ?_
  rw [add16_value_toNat, BitVec.toNat_add, BitVec.toNat_add, BitVec.toNat_ofNat, Nat.mod_add_mod, Nat.add_mod_mod]

theorem add16_carry_iff (a b : Word) (cin : Bool) :
    (add16 a b cin).carry = true ↔ 65536 ≤ a.toNat + b.toNat + cin.toNat := decide_eq_true_iff

/-- V as R151 computes it: operands of one sign, and a sum of the other. -/
theorem add16_overflow_iff_signs (a b : Word) (cin : Bool) :
    (add16 a b cin).overflow = true ↔ (32768 ≤ a.toNat ↔ 32768 ≤ b.toNat) ∧
      ¬ (32768 ≤ (a.toNat + b.toNat + cin.toNat) % 65536 ↔ 32768 ≤ a.toNat) := by
  rw [← add16_value_toNat]
  show (a.getLsbD 15 == b.getLsbD 15 && (add16 a b cin).value.getLsbD 15 != a.getLsbD 15) = true ↔ _
  rw [Bool.and_eq_true, beq_iff_eq, bne_iff_ne, ne_eq, getLsbD_15_eq_iff, getLsbD_15_eq_iff]

/-- V is two's-complement overflow, the carry in included. -/
theorem add16_overflow_iff (a b : Word) (cin : Bool) :
    (add16 a b cin).overflow = true ↔ ¬ FitsSigned (a.toInt + b.toInt + cin.toNat) := by
  have ha := a.isLt
  have hb := b.isLt
  have hcin := cin.toNat_le
  rw [add16_overflow_iff_signs, BitVec.toInt_eq_toNat_cond, BitVec.toInt_eq_toNat_cond]
  unfold FitsSigned
  split <;> split <;> omega

/-! Without a carry in, the sum is that of the operands alone. -/

theorem add16_false_value (a b : Word) : (add16 a b false).value = a + b :=
  (add16_value a b false).trans (BitVec.add_zero _)

theorem add16_false_overflow_iff (a b : Word) :
    (add16 a b false).overflow = true ↔ ¬ FitsSigned (a.toInt + b.toInt) := by
  rw [add16_overflow_iff, Bool.toNat_false, Int.natCast_zero, Int.add_zero]

/-! ### `Sub16` (R152) -/

theorem sub16_adder (a b : Word) : sub16 .adder a b = add16 a (~~~b) true := rfl

theorem sub16_negateThenAdd (a b : Word) : sub16 .negateThenAdd a b = add16 a (-b) false :=
  congrArg (add16 a · false) (BitVec.zero_sub b)

theorem sub16_value (how : SubFlags) (a b : Word) : (sub16 how a b).value = a - b := by
  cases how with
  | adder =>
    calc (add16 a (~~~b) true).value = a + ~~~b + 1#16 := add16_value _ _ _
      _ = a - b := by rw [BitVec.add_assoc, ← BitVec.neg_eq_not_add, BitVec.sub_eq_add_neg]
  | negateThenAdd =>
    rw [sub16_negateThenAdd, add16_false_value, BitVec.sub_eq_add_neg]

/-- With `negate_then_add` the row of 0 differs because the negation of 0 is 0, and not 65536. -/
theorem sub16_carry_iff (how : SubFlags) (a b : Word) : (sub16 how a b).carry = true ↔ SubCarry how a b := by
  have ha := a.isLt
  have hb := b.isLt
  cases how with
  | adder =>
    rw [sub16_adder, add16_carry_iff, BitVec.toNat_not, Bool.toNat_true]
    unfold SubCarry
    omega
  | negateThenAdd =>
    have hzero : b ≠ 0 ↔ b.toNat ≠ 0 := BitVec.toNat_ne
    rw [sub16_negateThenAdd, add16_carry_iff, BitVec.toNat_neg, Bool.toNat_false]
    unfold SubCarry
    dsimp only
    rw [hzero]
    omega

theorem toInt_not_eq_neg_one_sub (w : Word) : (~~~w).toInt = -1 - w.toInt := by
  have hw := w.isLt
  rw [BitVec.toInt_eq_toNat_cond, BitVec.toInt_eq_toNat_cond, BitVec.toNat_not]
  split <;> split <;> omega

/-- With `negate_then_add` the row of 0x8000 differs because 0x8000 is its own negation. -/
theorem sub16_overflow_iff (how : SubFlags) (a b : Word) : (sub16 how a b).overflow = true ↔ SubOverflow how a b := by
  cases how with
  | adder =>
    have hsum : a.toInt + (~~~b).toInt + (true.toNat : Int) = a.toInt - b.toInt := by
      rw [toInt_not_eq_neg_one_sub, Bool.toNat_true]
      omega
    rw [sub16_adder, add16_overflow_iff, hsum]
    rfl
  | negateThenAdd =>
    rw [sub16_negateThenAdd, add16_false_overflow_iff]
    unfold SubOverflow
    dsimp only
    split
    next hb =>
      obtain ⟨hlow, hhigh⟩ := fitsSigned_toInt a
      have hmin : (0x8000 : Word).toInt = -32768 := rfl
      have hneg : (-0x8000 : Word).toInt = -32768 := rfl
      rw [hb, hneg, hmin]
      unfold FitsSigned
      omega
    next hb => rw [BitVec.toInt_neg_of_ne_intMin hb, Int.sub_eq_add_neg]

end Sys2Proof.Proofs

/-! PROOFS, scope. RETn, ADDSP and SUBSP (spec/45_stack.md R145 to R147). -/

namespace Sys2Proof.Proofs

open Sys2Proof.Machine Sys2Proof.Claims

/-! ### RETn (R145) -/

theorem retnSpecifier_append (n : BitVec 3) : (0b01011#5 ++ n : Byte) = BitVec.ofNat 8 (0x58 + n.toNat) := by
  revert n
  decide

/-- Settles O8: the word popped is the one above the `n` bytes that are freed. -/
theorem retnPopsTheReturnAddress : Obligations.RetnPopsTheReturnAddress := by
  refine ⟨fun n => congrArg (List.cons · []) (retnSpecifier_append n), fun n s => ?pops⟩
  case pops =>
    have hsp : s.sp + BitVec.ofNat 16 (n.toNat + 2) = s.sp + BitVec.ofNat 16 n.toNat + 2 := by
      rw [BitVec.ofNat_add, ← BitVec.add_assoc]
      rfl
    rw [hsp]
    exact execRetn_of_read2 (BitVec.add_sub_cancel _ _).symm rfl

/-! ### ADDSP and SUBSP (R146, R147) -/

/-- An instruction that moves a 16-bit sum to SP and writes its flags changes nothing else. -/
theorem exec_sumToSp {i : Instr} {s : State} {r : Sum16} {w : Word} {ov ca : Prop}
    (hexec : exec i s = .next { s.setNZVC r with sp := r.value }) (hvalue : r.value = w)
    (hv : r.overflow = true ↔ ov) (hc : r.carry = true ↔ ca) :
    ∃ t, exec i s = .next t ∧ t = { s with sp := w, n := t.n, z := t.z, v := t.v, c := t.c } ∧ HasFlags t w ov ca := by
  have hflags := hasFlags_setNZVC s hvalue hv hc
  subst hvalue
  exact ⟨_, hexec, rfl, hflags⟩

/-- Settles O32: no carry goes into the sum. -/
theorem addspAddsToSp : Obligations.AddspAddsToSp := by
  refine ⟨fun m w => encode_of_modeField rfl rfl rfl, fun m w opr s hopr => ?sum⟩
  case sum =>
    subst hopr
    exact exec_sumToSp rfl (add16_false_value _ _) (add16_false_overflow_iff _ _) (add16_carry_iff _ _ false)

/-- Settles O33: both ways to subtract follow the table. -/
theorem subspSubtractsFromSp : Obligations.SubspSubtractsFromSp := by
  refine ⟨fun m w => encode_of_modeField rfl rfl rfl, fun m w opr s hopr => ?difference⟩
  case difference =>
    subst hopr
    exact exec_sumToSp rfl (sub16_value _ _ _) (sub16_overflow_iff _ _ _) (sub16_carry_iff _ _ _)

end Sys2Proof.Proofs

/-! PROOFS, scope. ADDr, SUBr, CPr, ANDr and ORr (spec/46_arith_logic.md R153 to R157), and `Add16` and `Sub16` in any
state (R151, R152). -/

namespace Sys2Proof.Proofs

open Sys2Proof.Machine Sys2Proof.Claims

/-! ### The bytes of an instruction with a register and a 3-bit mode (R53, R55) -/

theorem append_regField_zeros (op : BitVec 4) (r : Reg) :
    (op ++ r.field ++ 0#3 : Byte) = (op ++ 0#4) + 8 * regBit r := by
  cases r with
  | a => revert op; decide
  | x => revert op; decide

/-- The specifier is that of the row's first register and mode plus the register's bit, in place 3, and the number of
the mode. -/
theorem encode_of_regModeField {i : Instr} {op : BitVec 4} {first : Byte} {r : Reg} {m : Mode} {w : Word}
    (hspecifier : specifierOf i = op ++ r.field ++ m.field) (hoperand : operandSpecifierOf i = some w)
    (hfirst : op ++ 0#4 = first) :
    encode i = [first + 8 * regBit r + modeNumber m, w.extractLsb' 8 8, w.extractLsb' 0 8] :=
  encode_of_modeField hspecifier hoperand (hfirst ▸ append_regField_zeros op r)

/-! ### ADDr and SUBr (R153, R154) -/

/-- An instruction that moves a 16-bit sum to a register and writes its flags changes nothing else. -/
theorem exec_sumToReg {i : Instr} {r : Reg} {s : State} {sum : Sum16} {w : Word} {ov ca : Prop}
    (hexec : exec i s = .next ((s.setReg r sum.value).setNZVC sum)) (hvalue : sum.value = w)
    (hv : sum.overflow = true ↔ ov) (hc : sum.carry = true ↔ ca) :
    ∃ t, exec i s = .next t ∧ t = { s.setReg r w with n := t.n, z := t.z, v := t.v, c := t.c } ∧
      HasFlags t w ov ca := by
  have hflags := hasFlags_setNZVC (s.setReg r sum.value) hvalue hv hc
  subst hvalue
  exact ⟨_, hexec, rfl, hflags⟩

/-- Settles O34: no carry goes into the sum. -/
theorem addrAddsToTheRegister : Obligations.AddrAddsToTheRegister := by
  refine ⟨fun r m w => encode_of_regModeField rfl rfl rfl, fun r m w old opr s hold hopr => ?sum⟩
  case sum =>
    subst hold hopr
    exact exec_sumToReg rfl (add16_false_value _ _) (add16_false_overflow_iff _ _) (add16_carry_iff _ _ false)

/-- Settles O35: both ways to subtract follow the table. -/
theorem subrSubtractsFromTheRegister : Obligations.SubrSubtractsFromTheRegister := by
  refine ⟨fun r m w => encode_of_regModeField rfl rfl rfl, fun r m w old opr s hold hopr => ?difference⟩
  case difference =>
    subst hold hopr
    exact exec_sumToReg rfl (sub16_value _ _ _) (sub16_overflow_iff _ _ _) (sub16_carry_iff _ _ _)

/-! ### CPr (R157) -/

theorem hasFlags_setNZVC_sub16 (s : State) (how : SubFlags) (a b : Word) :
    HasFlags (s.setNZVC (sub16 how a b)) (a - b) (SubOverflow how a b) (SubCarry how a b) :=
  hasFlags_setNZVC s (sub16_value how a b) (sub16_overflow_iff how a b) (sub16_carry_iff how a b)

/-- Settles O36: the flags are written into the state itself, and the difference is 0 between equal words only. -/
theorem cprComparesTheRegister : Obligations.CprComparesTheRegister := by
  refine ⟨fun r m w => encode_of_regModeField rfl rfl rfl, fun r m w opr s hopr => ?compare⟩
  case compare =>
    subst hopr
    have hflags := hasFlags_setNZVC_sub16 s s.params.subFlags (s.reg r) (operand16 m w s)
    have ⟨_, hz, _, _⟩ := hflags
    exact ⟨_, rfl, rfl, hz.trans sub_eq_zero, hflags⟩

/-! ### ANDr and ORr (R155, R156) -/

/-- An instruction that moves a result to a register and writes N and Z changes nothing else. -/
theorem exec_resultToReg {i : Instr} {r : Reg} {s : State} {w : Word}
    (hexec : exec i s = .next ((s.setReg r w).setNZ w)) :
    ∃ t, exec i s = .next t ∧ t = { s.setReg r w with n := t.n, z := t.z } ∧
      HasFlags t w (s.v = true) (s.c = true) := by
  refine ⟨_, hexec, rfl, setNZ_n_iff _ w, setNZ_z_iff _ w, ?overflow, ?carry⟩
  case overflow => rw [State.setNZ_v, State.setReg_v]
  case carry => rw [State.setNZ_c, State.setReg_c]

/-- Settles O37: both combine the old register with the operand and keep V and C. -/
theorem andrOrrCombineBits : Obligations.AndrOrrCombineBits := by
  refine ⟨fun r m w => ⟨encode_of_regModeField rfl rfl rfl, encode_of_regModeField rfl rfl rfl⟩,
    fun r m w opr s hopr => ?combine⟩
  case combine =>
    subst hopr
    exact ⟨exec_resultToReg rfl, exec_resultToReg rfl⟩

/-! ### `Add16` in any state (R151) -/

/-- Settles O38: the two carries in are 0 and 1. -/
theorem add16IsExact : Obligations.Add16IsExact := by
  intro a b cin s
  have hflags := hasFlags_setNZVC s (add16_value a b cin) (add16_overflow_iff a b cin) (add16_carry_iff a b cin)
  cases cin with
  | false => exact ⟨add16_value a b false, hflags⟩
  | true => exact ⟨add16_value a b true, hflags⟩

/-! ### The rows of R152's table -/

theorem subCarry_iff_of_ne_zero (how : SubFlags) (a : Word) {b : Word} (hb : b ≠ 0) :
    SubCarry how a b ↔ b.toNat ≤ a.toNat := by
  cases how with
  | adder => exact Iff.rfl
  | negateThenAdd => exact and_iff_left hb

theorem subOverflow_iff_of_ne_min (how : SubFlags) (a : Word) {b : Word} (hb : b ≠ 0x8000) :
    SubOverflow how a b ↔ ¬ FitsSigned (a.toInt - b.toInt) := by
  cases how with
  | adder => exact Iff.rfl
  | negateThenAdd => exact iff_of_eq (if_neg hb)

theorem subOverflow_negateThenAdd_of_eq_min (a : Word) {b : Word} (hb : b = 0x8000) :
    SubOverflow .negateThenAdd a b ↔ FitsSigned (a.toInt - b.toInt) := iff_of_eq (if_pos hb)

theorem sub16_adder_zero_carry (a : Word) : (sub16 .adder a 0).carry = true :=
  (sub16_carry_iff .adder a 0).mpr (Nat.zero_le _)

theorem sub16_negateThenAdd_zero_carry (a : Word) : (sub16 .negateThenAdd a 0).carry = false := by
  rw [Bool.eq_false_iff, ne_eq, sub16_carry_iff]
  exact fun ⟨_, hne⟩ => hne rfl

theorem sub16_zero_overflow (how : SubFlags) (a : Word) : (sub16 how a 0).overflow = false := by
  have hzero : (0 : Word).toInt = 0 := rfl
  rw [Bool.eq_false_iff, ne_eq, sub16_overflow_iff, subOverflow_iff_of_ne_min how a (by decide), hzero, Int.sub_zero,
    not_not]
  exact fitsSigned_toInt a

/-- The words that are not below 0x8000 are the negative ones. -/
theorem sub16_min_carry (how : SubFlags) (a : Word) : (sub16 how a 0x8000).carry = a.getLsbD 15 := by
  rw [Bool.eq_iff_iff, sub16_carry_iff, subCarry_iff_of_ne_zero how a (by decide), getLsbD_15_iff_le_toNat]
  rfl

/-- The distance from the least signed number fits for the negative numbers. -/
theorem fitsSigned_sub_min_iff (a : Word) : FitsSigned (a.toInt - (0x8000 : Word).toInt) ↔ a.getLsbD 15 = true := by
  have hmin : (0x8000 : Word).toInt = -32768 := rfl
  obtain ⟨hlow, hhigh⟩ := fitsSigned_toInt a
  rw [getLsbD_15_iff_toInt_neg, hmin]
  unfold FitsSigned
  omega

theorem sub16_adder_min_overflow (a : Word) : (sub16 .adder a 0x8000).overflow = !a.getLsbD 15 := by
  rw [Bool.eq_iff_iff, sub16_overflow_iff, Bool.not_eq_true', ← Bool.not_eq_true, ← fitsSigned_sub_min_iff]
  rfl

theorem sub16_negateThenAdd_min_overflow (a : Word) : (sub16 .negateThenAdd a 0x8000).overflow = a.getLsbD 15 := by
  rw [Bool.eq_iff_iff, sub16_overflow_iff, subOverflow_negateThenAdd_of_eq_min a rfl, fitsSigned_sub_min_iff]

/-- Settles O39: 0 and 0x8000, which are their own negations, have rows of their own. -/
theorem sub16FollowsTheTable : Obligations.Sub16FollowsTheTable := by
  intro a b s
  simp only [State.setNZVC_v, State.setNZVC_c]
  refine ⟨?value, ?otherOperands, sub16_adder_zero_carry a, sub16_zero_overflow .adder a,
    sub16_negateThenAdd_zero_carry a, sub16_zero_overflow .negateThenAdd a, sub16_min_carry .adder a,
    sub16_adder_min_overflow a, sub16_min_carry .negateThenAdd a, sub16_negateThenAdd_min_overflow a⟩
  case value =>
    intro how
    obtain ⟨hn, hz, -, -⟩ := hasFlags_setNZVC_sub16 s how a b
    exact ⟨sub16_value how a b, hn, hz⟩
  case otherOperands =>
    intro how hzero hmin
    exact ⟨(sub16_carry_iff how a b).trans (subCarry_iff_of_ne_zero how a hzero),
      (sub16_overflow_iff how a b).trans (subOverflow_iff_of_ne_min how a hmin)⟩

end Sys2Proof.Proofs

/-! PROOFS, scope. LDr, LDBYTEr, STr and STBYTEr (spec/47_load_store.md R160 to R163). -/

namespace Sys2Proof.Proofs

open Sys2Proof.Machine Sys2Proof.Claims

/-! ### LDr and LDBYTEr (R160, R161) -/

/-- Settles O40: the operand is read before the register is written. -/
theorem ldrLoadsTheWord : Obligations.LdrLoadsTheWord := by
  refine ⟨fun r m w => encode_of_regModeField rfl rfl rfl, fun r m w opr s hopr => ?load⟩
  case load =>
    subst hopr
    exact exec_resultToReg rfl

/-- Settles O41: the word loaded is made of the register's high byte and the byte operand. -/
theorem ldbyterLoadsTheLowByte : Obligations.LdbyterLoadsTheLowByte := by
  refine ⟨fun r m w => encode_of_regModeField rfl rfl rfl, fun r m w s => ?load⟩
  case load =>
    obtain ⟨t, hexec, hframe, hflags⟩ :=
      exec_resultToReg (i := .ldbyter r m w) (w := wordOf (hiByte (s.reg r)) (operand8 m w s)) rfl
    exact ⟨t, _, hexec, hframe, hiByte_wordOf _ _, loByte_wordOf _ _, hflags⟩

/-! ### STr (R162) -/

/-- STr with an address ends as its store does. -/
theorem execStr_of_ea {m : Mode} {w ea : Word} {s : State} (hea : effectiveAddress m w s = some ea) (r : Reg) :
    execStr r m w s = finish (s.write2 ea (s.reg r)) := by
  unfold execStr
  rw [operandAddress_destination hea]
  rfl

theorem execStr_stores {m : Mode} {w ea : Word} {s : State} (hea : effectiveAddress m w s = some ea)
    (h : CanStore s ea) (h' : CanStore s (ea + 1)) (r : Reg) :
    ∃ t, execStr r m w s = .next t ∧ t = { s with mem := t.mem } ∧ StoresWord s t ea (s.reg r) := by
  obtain ⟨t, hstore⟩ := State.write2_completes (s.reg r) (canStore_iff.mp h) (canStore_iff.mp h')
  refine ⟨t, ?next, State.write2_frame hstore, storesWord_of_write2 hstore⟩
  case next => rw [execStr_of_ea hea, hstore, finish_ok]

theorem not_isTrap_str (r : Reg) (m : Mode) (w : Word) : ¬ IsTrap (.str r m w) := by
  cases r <;> exact not_trapRange_of_upperField _ m.field (by decide)

/-- Settles O42: with an address STr is one word store; mode i is ill-formed. -/
theorem strStoresTheWord : Obligations.StrStoresTheWord := by
  refine ⟨?bytes, ?stores, ?illegal⟩
  case bytes => exact fun r m w => encode_of_regModeField rfl rfl rfl
  case stores => exact fun r m w ea s hea h h' => execStr_stores hea h h' r
  case illegal => exact fun r w s => exec_of_illFormed rfl fun htrap => absurd htrap (not_isTrap_str r .i w)

/-! ### STBYTEr (R163) -/

/-- STBYTEr with an address ends as its store does. -/
theorem execStbyter_of_ea {m : Mode} {w ea : Word} {s : State} (hea : effectiveAddress m w s = some ea) (r : Reg) :
    execStbyter r m w s = finish (s.write1 ea (loByte (s.reg r))) := by
  unfold execStbyter
  rw [operandAddress_destination hea]
  rfl

theorem execStbyter_stores {m : Mode} {w ea : Word} {s : State} (hea : effectiveAddress m w s = some ea)
    (h : CanStore s ea) (r : Reg) :
    ∃ t, execStbyter r m w s = .next t ∧ t = { s with mem := t.mem } ∧ StoresByte s t ea (loByte (s.reg r)) := by
  obtain ⟨t, hstore⟩ := State.write1_completes (loByte (s.reg r)) (canStore_iff.mp h)
  refine ⟨t, ?next, State.write1_frame hstore, storesByte_of_write1 hstore⟩
  case next => rw [execStbyter_of_ea hea, hstore, finish_ok]

theorem not_isTrap_stbyter (r : Reg) (m : Mode) (w : Word) : ¬ IsTrap (.stbyter r m w) := by
  cases r <;> exact not_trapRange_of_upperField _ m.field (by decide)

/-- Settles O43: with an address STBYTEr is one byte store; mode i is ill-formed. -/
theorem stbyterStoresTheLowByte : Obligations.StbyterStoresTheLowByte := by
  refine ⟨?bytes, ?stores, ?illegal⟩
  case bytes => exact fun r m w => encode_of_regModeField rfl rfl rfl
  case stores => exact fun r m w ea s hea h => execStbyter_stores hea h r
  case illegal => exact fun r w s => exec_of_illFormed rfl fun htrap => absurd htrap (not_isTrap_stbyter r .i w)

end Sys2Proof.Proofs

/-! PROOFS, scope. Trap entry with its frame anywhere in memory, in ROM or not (spec/60_exceptions.md R203, R204;
spec/20_memory.md R35). -/

namespace Sys2Proof.Proofs

open Sys2Proof.Machine Sys2Proof.Claims

/-! ### A sequence of byte stores where ROM may ignore some (R35) -/

theorem canStore_congr {s t : State} (hp : t.params = s.params) {a : Word} : CanStore t a ↔ CanStore s a := by
  unfold CanStore
  rw [hp, inRom_congr hp]

theorem storeBytes_completes {cells : List (Word × Byte)} {s : State} (h : ∀ cell ∈ cells, CanStore s cell.1) :
    ∃ t, storeBytes cells s = .ok t := by
  induction cells generalizing s with
  | nil => exact ⟨s, rfl⟩
  | cons cell rest ih =>
    obtain ⟨hcell, hrest⟩ := List.forall_mem_cons.mp h
    obtain ⟨s', hstore⟩ := State.write1_completes cell.2 (canStore_iff.mp hcell)
    have hp : s'.params = s.params := (streamsAdvance_of_write1 hstore).params
    obtain ⟨t, ht⟩ := ih fun cell' hcell' => (canStore_congr hp).mpr (hrest cell' hcell')
    exact ⟨t, by rw [storeBytes_cons, bind_of_eq_ok hstore, ht]⟩

/-- Stores to different addresses: a byte outside ROM is the one stored to it, wherever the others go. -/
theorem storeBytes_read1_of_mem_of_notInRom {cells : List (Word × Byte)} {s t : State}
    (h : storeBytes cells s = .ok t) (hdistinct : (cells.map Prod.fst).Nodup) {a : Word} {b : Byte}
    (hmem : (a, b) ∈ cells) (hram : ¬ InRom s a) : t.read1 a = b := by
  induction cells generalizing s with
  | nil => exact nomatch hmem
  | cons first rest ih =>
    obtain ⟨s', hstore, hrest⟩ := bind_eq_ok h
    obtain ⟨hfirst, hdistinct⟩ := List.nodup_cons.mp hdistinct
    rcases List.mem_cons.mp hmem with rfl | hmem
    · rw [storeBytes_read1_of_notMem hrest hfirst, State.write1_read1 hstore,
        if_pos ⟨rfl, inRom_eq_false_iff.mpr hram⟩]
    · exact ih hrest hdistinct hmem (mt (inRom_congr (streamsAdvance_of_write1 hstore).params).mp hram)

/-! ### The ten bytes of the frame (R204) -/

/-- The flags byte is that of R204: four zero bits, then N, Z, V and C. -/
theorem flagsByte_eq (s : State) :
    (0b0000#4 ++ s.flagsNibble : Byte) =
      0b0000#4 ++ BitVec.ofBool s.n ++ BitVec.ofBool s.z ++ BitVec.ofBool s.v ++ BitVec.ofBool s.c := by
  unfold State.flagsNibble
  generalize s.n = n, s.z = z, s.v = v, s.c = c
  revert n z v c
  decide

/-- The byte stored at distance `d` below the word at 0xFFFA is the one at offset `10 - d` of R204's frame. -/
theorem frameCells_eq (s : State) :
    frameCells s = frameDistances.map fun d => (s.read2 0xFFFA - d, (trapFrame s).getD (10 - d.toNat) 0) := by
  have hnext : ∀ t k : Word, t - k + 1 = t - (k - 1) := fun t k => by bv_omega
  simp only [frameCells, wordCells, flagsByte_eq, hnext]
  rfl

theorem distance_mem_frameDistances : ∀ k, k < 10 → BitVec.ofNat 16 (10 - k) ∈ frameDistances := by decide

/-- Trap entry stores each byte of R204's frame at its offset from the frame's lowest address. -/
theorem mem_frameCells {s : State} {k : Nat} {b : Byte} (h : (trapFrame s)[k]? = some b) :
    (s.read2 0xFFFA - 10 + BitVec.ofNat 16 k, b) ∈ frameCells s := by
  have hk : k < 10 := (List.getElem?_eq_some_iff.mp h).1
  have hdistance : (BitVec.ofNat 16 (10 - k)).toNat = 10 - k := by
    rw [BitVec.toNat_ofNat, Nat.mod_eq_of_lt (by omega)]
  rw [frameCells_eq]
  refine List.mem_map.mpr ⟨_, distance_mem_frameDistances k hk, ?_⟩
  rw [sub_eq_sub_ten_add _ (by omega), hdistance, Nat.sub_sub_self (by omega), List.getD_eq_getElem?_getD, h]
  rfl

theorem frameCells_completes {s : State}
    (h : ∀ k, k < 10 → CanStore s (s.read2 0xFFFA - 10 + BitVec.ofNat 16 k)) :
    ∃ framed, storeBytes (frameCells s) s = .ok framed := by
  refine storeBytes_completes fun cell hcell => ?_
  obtain ⟨k, hk, ha⟩ := exists_offset_of_mem_frameStores (frameCells_addresses s ▸ List.mem_map_of_mem hcell)
  exact ha ▸ h k hk

/-- Settles O25: trap entry is the ten byte stores of its frame; SP and PC are written after them. -/
theorem trapEntryBuildsTheFrame : Obligations.TrapEntryBuildsTheFrame := by
  intro i s hi hmodel hcan
  obtain ⟨framed, hstores⟩ := frameCells_completes hcan
  refine ⟨{ framed with sp := s.read2 0xFFFA - 10, pc := framed.read2 0xFFFE }, ?next, ?frame, ?bytes, ?others⟩
  case next =>
    rw [exec_of_isTrap_hardware hi hmodel, takeTrap_eq_storeBytes, hstores]
    rfl
  case frame =>
    rw [storeBytes_frame hstores]
    rfl
  case bytes =>
    rintro k b a hb rfl
    have hdistinct : ((frameCells s).map Prod.fst).Nodup := frameCells_addresses s ▸ frameStores_nodup s
    exact ⟨storeBytes_read1_of_mem_of_notInRom hstores hdistinct (mem_frameCells hb),
      (romKept_of_storeBytes hstores).bytes _⟩
  case others =>
    intro a ha
    show framed.read1 a = s.read1 a
    refine storeBytes_read1_of_notMem hstores fun hmem => ?_
    obtain ⟨k, hk, rfl⟩ := exists_offset_of_mem_frameStores (frameCells_addresses s ▸ hmem)
    exact ha k hk rfl

end Sys2Proof.Proofs

/-! PROOFS, scope. The direct start of a run without an operating system (spec/70_reset_and_hazards.md R230). -/

namespace Sys2Proof.Proofs

open Sys2Proof.Machine Sys2Proof.Claims

/-- An image that ends at or below the top of memory is read from its first address on; below it and behind it memory
is as before. -/
theorem read_place {bytes : List Byte} {m : Memory} {start : Nat} (hfits : start + bytes.length ≤ 65536) (a : Nat) :
    (m.place start bytes).read a = if a < start then m.read a else bytes[a - start]?.getD (m.read a) := by
  induction bytes generalizing m start with
  | nil => simp [Memory.place]
  | cons b rest ih =>
    rw [List.length_cons] at hfits
    have hread := Memory.read_write m start b a
    rw [Memory.place, Nat.mod_eq_of_lt (by omega), ih (by omega), hread]
    rcases Nat.lt_trichotomy a start with hbelow | rfl | habove
    · rw [if_pos (by omega), if_neg (by omega), if_pos hbelow]
    · simp
    · have hnext : a - start = (a - (start + 1)) + 1 := by omega
      rw [if_neg (by omega), if_neg (by omega), if_neg (by omega), hnext, List.getElem?_cons_succ]

/-- Settles O57: with no image of an operating system, and memory filled with zeros, memory is the program placed at
address 0. -/
theorem directStartLoadsTheProgram : Obligations.DirectStartLoadsTheProgram := by
  intro p program input hmodel hlength
  have hserved : trapsAreServed p .zero [] = true := by
    unfold trapsAreServed
    rw [hmodel]
  refine ⟨{ State.reset with sp := p.userSpInit, mem := Memory.place [] 0 program, input := input, params := p },
    ?start, ?canonical, rfl, fun a => ?reads⟩
  case start =>
    unfold State.start
    rw [if_pos ⟨hlength, Nat.zero_le _, hserved⟩]
    rfl
  case canonical => exact Memory.wf_place Memory.wf_nil 0 program
  case reads => exact read_place (m := []) (start := 0) (by omega) a.toNat

end Sys2Proof.Proofs
